-- ==== Sys2Proof/Word.lean ====
section
/-! DEFINITION. The word types of the block (spec/00_scope.md R10: a byte is 8 bits, `u16` is an unsigned 16-bit value). -/

namespace Sys2Proof

/-- A byte (`u8`), R10. -/
abbrev Byte := BitVec 8

/-- A 16-bit value (`u16`), R10. -/
abbrev U16 := BitVec 16

/-- `Time`: the type of `Now()` and of every timeout, a natural number of ticks (R14, R271; log 17). -/
abbrev Time := Nat

end Sys2Proof
end

