-- ==== Sys2Proof/Machine/Recurrence.lean ====
section
/-! DEFINITION. The recurrence of spec/40_checksum.md R121, the default of the configuration function `CK_STEP` (R7,
R127; spec/92_eei_decisions.md D3). -/

namespace Sys2Proof.Machine

open Sys2Proof

/-- `CK_STEP(acc, b)`, line by line (R121). Bits shifted past bit 15 are dropped (R124). -/
def ckStep (acc : U16) (b : Byte) : U16 :=
  let code : U16 := (acc >>> 8) ^^^ b.setWidth 16
  let acc : U16 := (acc <<< 8) ^^^ code
  let code : U16 := code <<< 5
  let acc : U16 := acc ^^^ code
  let code : U16 := code <<< 7
  acc ^^^ code

end Sys2Proof.Machine
end

