-- ==== Sys2Proof/Config.lean ====
section
/-! DEFINITION. The parameters of spec/00_scope.md R7 as named constants, the configuration function `CK_STEP` with its
default (spec/40_checksum.md R127), and the free values of the model: what the
environment answers once the state lists no more answers (R14; spec/93_implementation_defined.md U6, U7). -/

namespace Sys2Proof.Config

open Sys2Proof

/-- `MARKER`: the start-marker byte (R7). -/
abbrev marker : Byte := 0xAA

/-- `LEN_SHIFT`: the bit position of the length field inside the flags (R7). -/
abbrev lenShift : Nat := 6

/-- `WRITE_BIT`: the bit of the flags that is 1 in a write frame and 0 in a read frame (R7). -/
abbrev writeBit : Nat := 0

/-- `HDR_BYTES`: marker and two flags bytes (R7). -/
abbrev hdrBytes : Nat := 3

/-- `CK_BYTES`: the checksum trailer (R7). -/
abbrev ckBytes : Nat := 2

/-- `CNT_MIN`: least accepted parser count (R7; spec/90_conflicts.md C1). -/
abbrev cntMin : Nat := 3

/-- `CNT_MAX`: greatest accepted parser count (R7; C1). -/
abbrev cntMax : Nat := 1019

/-- `FIELD_MIN_DEC`: least accepted length field (R7). -/
abbrev fieldMinDec : Nat := 1

/-- `FIELD_MAX_DEC`: greatest accepted length field (R7). -/
abbrev fieldMaxDec : Nat := 1017

/-- `PAYLOAD_MAX`: greatest user payload (R7, R143). -/
abbrev payloadMax : Nat := 1016

/-- `FRAME_MAX`: longest accepted frame in bytes (R7). -/
abbrev frameMax : Nat := 1022

/-- `FRAME_MIN`: shortest accepted frame in bytes (R7). -/
abbrev frameMin : Nat := 6

/-- `BUF_BYTES`: size of the frame buffer (R7, R22). -/
abbrev bufBytes : Nat := 1022

/-- `REQ_BYTES`: size of the request buffer (R7, R33). -/
abbrev reqBytes : Nat := 1022

/-- `RETRY_BUDGET`: attempts per transaction (R7, R192). -/
abbrev retryBudget : Nat := 4

/-- `CK_INIT`: start value of the checksum accumulator (R7, R27; log 16). -/
abbrev ckInit : U16 := 0x0000

/-- A per-byte update of the checksum accumulator: what may be supplied for `CK_STEP` (R127). -/
abbrev CkStep := U16 → Byte → U16

/-- `CK_STEP`, the configuration function, at its default, the recurrence of R121 (R7, R127; D3; log 16). The engine, the
encoder, the parser and the reader take another one as an argument; Machine/Supplied.lean is the machine with one
supplied. -/
abbrev ckStep : CkStep := Machine.ckStep

/-- `TICK`: the duration of one unit of `Now()`, OPEN in R7; no rule depends on it (R270; log 17). -/
opaque tick : Nat

/-- `TIME_BITS`: the width of the time value, OPEN in R7; the model's time is unbounded (R271; log 17). -/
opaque timeBits : Nat

/-- Free value: the answer of the `n`-th `RxPoll()` made after the state's list of answers has run out (R14, U6; log 3). -/
opaque freePoll : Nat → Option Byte

/-- Free value: how far the time base moves before the `n`-th `Now()` made after the state's list of advances has run
out (R14, U7; log 4). A natural number, so that `Now()` never decreases. -/
opaque freeTick : Nat → Nat

end Sys2Proof.Config
end

