-- ==== Sys2Proof/Machine/Bits.lean ====
section
/-! DEFINITION. Byte order and bit fields of the wire format (spec/00_scope.md R11; spec/30_encoding.md R91, R92, R96). -/

namespace Sys2Proof.Machine

open Sys2Proof

/-- `lo8(v) = v & 0xFF` (R11). -/
def lo8 (v : U16) : Byte := v.setWidth 8

/-- `hi8(v) = (v >> 8) & 0xFF` (R11). -/
def hi8 (v : U16) : Byte := (v >>> 8).setWidth 8

/-- `le16(a, b) = a | (b << 8)`: the first byte is the low one (R11, R61). -/
def le16 (a b : Byte) : U16 := a.setWidth 16 ||| (b.setWidth 16 <<< 8)

/-- The length field `flags[15:6]` (R92). -/
def flagsField (f : U16) : BitVec 10 := (f >>> Config.lenShift).setWidth 10

/-- `count = field + 2`, the bytes that follow the flags (R96; spec/90_conflicts.md C1). -/
def flagsCount (f : U16) : Nat := (flagsField f).toNat + Config.ckBytes

/-- The write bit `flags[0]` (R92, R97). -/
def flagsWrite (f : U16) : Bool := f.getLsbD Config.writeBit

/-- Flags bits 5:1, not assigned by the source (R98). -/
def flagsReserved (f : U16) : BitVec 5 := (f >>> (Config.writeBit + 1)).setWidth 5

/-- A flags value from its three parts (R91, R92). -/
def mkFlags (isWrite : Bool) (reserved : BitVec 5) (field : BitVec 10) : U16 :=
  (field.setWidth 16 <<< Config.lenShift) ||| (reserved.setWidth 16 <<< (Config.writeBit + 1)) |||
    ((BitVec.ofBool isWrite).setWidth 16 <<< Config.writeBit)

/-- The parser's range test `3 <= count <= 1019` (R96, R99, R154). -/
def countInRange (count : Nat) : Bool := Config.cntMin ≤ count && count ≤ Config.cntMax

end Sys2Proof.Machine
end

