-- ==== Sys2Proof/Syntax.lean ====
section
/-! DEFINITION. The instructions of the block: one constructor per row of spec/opcode_table.json, and the words they are
fetched from (host calls of spec/30_encoding.md R105 and R107, decode keys of R104, frame bytes of R90). -/

namespace Sys2Proof

/-- The four resting values of the parser state register (spec/10_state.md R21). `GOT_FLAGS_HIGH` is never stored
(spec/42_decoder.md R161; log 18). -/
inductive ParserState where
  | hunting
  | gotMarker
  | gotFlagsLow
  | accumulating
deriving DecidableEq, Repr

/-- The eight received-byte classes of spec/30_encoding.md R104. -/
inductive RxClass where
  | noise
  | marker
  | flagsLo
  | flagsHiOk
  | flagsHiBad
  | body
  | lastOk
  | lastBad
deriving DecidableEq, Repr

/-- The instructions: two frame kinds (R108), eight received-byte classes (R104), eight host operations (R105). -/
inductive Instr where
  /-- `FRAME_READ`: a frame with write bit 0; command, flags bits 5:1, length field, and the bytes after the header
  word (payload, then the two checksum bytes) (R91). -/
  | frameRead (cmd : Byte) (reserved : BitVec 5) (field : BitVec 10) (tail : List Byte)
  /-- `FRAME_WRITE`: the same with write bit 1 (R91). -/
  | frameWrite (cmd : Byte) (reserved : BitVec 5) (field : BitVec 10) (tail : List Byte)
  | rxNoise (b : Byte)
  | rxMarker
  | rxFlagsLo (b : Byte)
  | rxFlagsHiOk (b : Byte)
  | rxFlagsHiBad (b : Byte)
  | rxBody (b : Byte)
  | rxLastOk (b : Byte)
  | rxLastBad (b : Byte)
  | parserReset
  | feed (b : Byte)
  | frameGet
  | checksum (bytes : List Byte)
  | encode (cmd : Byte) (isWrite : Bool) (payload : List Byte)
  | reqLoad (cmd : Byte) (bytes : List Byte)
  | waitFrame (expect : Byte) (timeout : Time)
  | transact (timeout : Time)
deriving DecidableEq, Repr

/-- One request on the host command interface: the 3-bit select code and the argument ports of spec/30_encoding.md
R105. An operation reads the ports R105 gives it: `byteArg` is `byte`, `cmd` or `expect`; `flagArg` is `is_write`;
`seqArg` is the byte sequence with its length; `timeArg` is `timeout`. -/
structure OpRequest where
  op : BitVec 3
  byteArg : Byte
  flagArg : Bool
  seqArg : List Byte
  timeArg : Time
deriving DecidableEq, Repr

/-- One call of the host. -/
inductive HostCall where
  /-- An operation of R105. -/
  | op (r : OpRequest)
  /-- A whole frame handed to `feedall` (R107; log 8). -/
  | frame (bytes : List Byte)
  /-- Any other request: R9 asks a model to refuse it. -/
  | other (bytes : List Byte)
deriving DecidableEq, Repr

/-- The words an instruction is read from: a host call, or the 11-bit decode key `K = (ps << 8) | b` of R104. -/
inductive Words where
  | call (c : HostCall)
  | key (k : BitVec 11)
deriving DecidableEq, Repr

end Sys2Proof
end

