-- ==== Sys2Proof/WellFormed.lean ====
section
/-! DEFINITION. When an instruction is well formed: its operands lie in the ranges its rule gives them. -/

namespace Sys2Proof

/-- The bytes after the header word are as many as the length field says: `field - 1` payload bytes and two checksum
bytes (spec/30_encoding.md R91, R96: the frame is `3 + count = 5 + field` bytes, four of them the header word). A length
field out of the accepted range is no reason to refuse the term: the parser has a rule for it
(spec/42_decoder.md R155). -/
def tailFits (field : BitVec 10) (tail : List Byte) : Bool :=
  tail.length = field.toNat + 1

/-- The operand checks, constructor by constructor. -/
def Instr.wellFormed : Instr → Bool
  | .frameRead _ _ field tail => tailFits field tail
  | .frameWrite _ _ field tail => tailFits field tail
  | .rxNoise b => b ≠ Config.marker
  | .rxMarker => true
  | .rxFlagsLo _ => true
  | .rxFlagsHiOk _ => true
  | .rxFlagsHiBad _ => true
  | .rxBody _ => true
  | .rxLastOk _ => true
  | .rxLastBad _ => true
  | .parserReset => true
  | .feed _ => true
  | .frameGet => true
  | .checksum _ => true
  | .encode _ _ payload => payload.length ≤ Config.payloadMax
  | .reqLoad _ bytes => bytes.length ≤ Config.reqBytes
  | .waitFrame _ _ => true
  | .transact _ => true

end Sys2Proof
end

