-- ==== Sys2Proof/Decode.lean ====
section
/-! DEFINITION. The decoder, total on any words and rejecting by name, and after it the encoder. Three word formats
(spec/opcode_table.json): the host's operation requests (spec/30_encoding.md R105), the parser's decode keys (R104) and
whole frames (R90, R91). -/

namespace Sys2Proof

open Sys2Proof.Machine

/-- Why words are rejected. -/
inductive DecodeError where
  /-- A request that is none of the eight operations (spec/00_scope.md R9). -/
  | notAnOperation
  /-- Frame bytes that do not begin with the marker (R90). -/
  | noMarker (b : Byte)
  /-- Frame bytes whose number differs from what their flags say (R96, R103), or fewer than four. -/
  | frameLength (got : Nat)
  /-- A decode key whose parser state is 3, 5, 6 or 7, never stored (spec/10_state.md R21, R42 item I7). -/
  | unusedParserState (code : BitVec 3)
  /-- A second flags byte with no first flags byte in the buffer: unreachable (R42 item I3). -/
  | noFlagsLow
  /-- A byte in `ACCUMULATING` with `rem = 0`: unreachable (R42 item I4; log 23). -/
  | remZero
  /-- A last byte with no frame in the buffer to verify: unreachable (R42 item I4). -/
  | noTrailer
deriving DecidableEq, Repr

/-- What the class of a received byte depends on besides `ps` and the byte itself (R104): the first flags byte, the
remaining count, the checksum byte before the last, and the checksum of the covered bytes; `none` where the buffer does
not hold it. -/
structure RxContext where
  flagsLo : Option Byte
  rem : Nat
  ckLo : Option Byte
  ckCalc : Option U16
deriving DecidableEq, Repr

/-- The encoding of `ps` (spec/10_state.md R21). -/
def ParserState.code : ParserState → BitVec 3
  | .hunting => 0
  | .gotMarker => 1
  | .gotFlagsLow => 2
  | .accumulating => 4

/-- The parser state of an encoding; 3 is never stored, 5 to 7 are unused (R21). -/
def parserStateOf (code : BitVec 3) : Option ParserState :=
  if code = 0 then some .hunting
  else if code = 1 then some .gotMarker
  else if code = 2 then some .gotFlagsLow
  else if code = 4 then some .accumulating
  else none

/-- The decode table of R104: the class of byte `b` in parser state `ps`. -/
def classify (c : RxContext) (ps : ParserState) (b : Byte) : Except DecodeError RxClass :=
  match ps with
  | .hunting => if b = Config.marker then .ok .marker else .ok .noise
  | .gotMarker => .ok .flagsLo
  | .gotFlagsLow =>
    match c.flagsLo with
    | none => .error .noFlagsLow
    | some lo => if countInRange (flagsCount (le16 lo b)) then .ok .flagsHiOk else .ok .flagsHiBad
  | .accumulating =>
    if 1 < c.rem then .ok .body
    else if c.rem = 1 then
      match c.ckLo, c.ckCalc with
      | some lo, some ck => if le16 lo b = ck then .ok .lastOk else .ok .lastBad
      | _, _ => .error .noTrailer
    else .error .remZero

/-- The instruction of a class and its byte. -/
def RxClass.instr : RxClass → Byte → Instr
  | .noise, b => .rxNoise b
  | .marker, _ => .rxMarker
  | .flagsLo, b => .rxFlagsLo b
  | .flagsHiOk, b => .rxFlagsHiOk b
  | .flagsHiBad, b => .rxFlagsHiBad b
  | .body, b => .rxBody b
  | .lastOk, b => .rxLastOk b
  | .lastBad, b => .rxLastBad b

/-- The decode key `K = (ps << 8) | b` (R104). -/
def rxKey (ps : ParserState) (b : Byte) : BitVec 11 := ps.code ++ b

/-- The parser state's code in a key, bits 10:8. -/
def keyCode (k : BitVec 11) : BitVec 3 := (k >>> 8).setWidth 3

/-- The byte in a key, bits 7:0. -/
def keyByte (k : BitVec 11) : Byte := k.setWidth 8

/-- Decoding of a received-byte key (R104). -/
def decodeKey (c : RxContext) (k : BitVec 11) : Except DecodeError Instr :=
  match parserStateOf (keyCode k) with
  | none => .error (.unusedParserState (keyCode k))
  | some ps =>
    match classify c ps (keyByte k) with
    | .error e => .error e
    | .ok cl => .ok (cl.instr (keyByte k))

/-- Decoding of an operation request (R105: the eight select codes, each operation with its argument ports). -/
def decodeOp (r : OpRequest) : Instr :=
  match r.op.toNat with
  | 0 => .parserReset
  | 1 => .feed r.byteArg
  | 2 => .frameGet
  | 3 => .checksum r.seqArg
  | 4 => .encode r.byteArg r.flagArg r.seqArg
  | 5 => .reqLoad r.byteArg r.seqArg
  | 6 => .waitFrame r.byteArg r.timeArg
  | _ => .transact r.timeArg

/-- Decoding of a whole frame: marker, flags low byte first, command, then as many bytes as the length field says
(R90, R91, R96, R103). Flags bits 5:1 are kept (R98), and every length field is read: one out of range is not rejected
here, since the parser has a rule for it (spec/42_decoder.md R155). -/
def decodeFrame (bytes : List Byte) : Except DecodeError Instr :=
  match bytes with
  | m :: lo :: hi :: cmd :: tail =>
    let f := le16 lo hi
    if m = Config.marker then
      if tailFits (flagsField f) tail then
        if flagsWrite f then .ok (.frameWrite cmd (flagsReserved f) (flagsField f) tail)
        else .ok (.frameRead cmd (flagsReserved f) (flagsField f) tail)
      else .error (.frameLength bytes.length)
    else .error (.noMarker m)
  | _ => .error (.frameLength bytes.length)

/-- Decoding of a host call. -/
def decodeCall (c : HostCall) : Except DecodeError Instr :=
  match c with
  | .op r => .ok (decodeOp r)
  | .frame bytes => decodeFrame bytes
  | .other _ => .error .notAnOperation

/-- The decoder. The context matters for the decode keys only. -/
def decode (c : RxContext) (w : Words) : Except DecodeError Instr :=
  match w with
  | .call h => decodeCall h
  | .key k => decodeKey c k

/-! ### The encoder -/

/-- A request with the ports an operation does not read at zero. -/
def opCall (op : BitVec 3) (byteArg : Byte) (flagArg : Bool) (seqArg : List Byte) (timeArg : Time) : Words :=
  .call (.op { op := op, byteArg := byteArg, flagArg := flagArg, seqArg := seqArg, timeArg := timeArg })

/-- The bytes of a frame on the wire (R90, R91): marker, flags low byte first, command, the rest. -/
def frameBytes (isWrite : Bool) (cmd : Byte) (reserved : BitVec 5) (field : BitVec 10) (tail : List Byte) : List Byte :=
  let f := mkFlags isWrite reserved field
  [Config.marker, lo8 f, hi8 f, cmd] ++ tail

/-- The words of an instruction (R91, R104, R105). -/
def encode : Instr → Words
  | .frameRead cmd r field tail => .call (.frame (frameBytes false cmd r field tail))
  | .frameWrite cmd r field tail => .call (.frame (frameBytes true cmd r field tail))
  | .rxNoise b => .key (rxKey .hunting b)
  | .rxMarker => .key (rxKey .hunting Config.marker)
  | .rxFlagsLo b => .key (rxKey .gotMarker b)
  | .rxFlagsHiOk b => .key (rxKey .gotFlagsLow b)
  | .rxFlagsHiBad b => .key (rxKey .gotFlagsLow b)
  | .rxBody b => .key (rxKey .accumulating b)
  | .rxLastOk b => .key (rxKey .accumulating b)
  | .rxLastBad b => .key (rxKey .accumulating b)
  | .parserReset => opCall 0 0 false [] 0
  | .feed b => opCall 1 b false [] 0
  | .frameGet => opCall 2 0 false [] 0
  | .checksum bytes => opCall 3 0 false bytes 0
  | .encode cmd w payload => opCall 4 cmd w payload 0
  | .reqLoad cmd bytes => opCall 5 cmd false bytes 0
  | .waitFrame expect t => opCall 6 expect false [] t
  | .transact t => opCall 7 0 false [] t

/-- When an instruction is the one its key means in a context: the conditions of R104's table. Other instructions need
no context. -/
def Instr.fits (c : RxContext) : Instr → Bool
  | .rxFlagsHiOk b => match c.flagsLo with
    | some lo => countInRange (flagsCount (le16 lo b))
    | none => false
  | .rxFlagsHiBad b => match c.flagsLo with
    | some lo => !countInRange (flagsCount (le16 lo b))
    | none => false
  | .rxBody _ => 1 < c.rem
  | .rxLastOk b => match c.ckLo, c.ckCalc with
    | some lo, some ck => c.rem = 1 && le16 lo b = ck
    | _, _ => false
  | .rxLastBad b => match c.ckLo, c.ckCalc with
    | some lo, some ck => c.rem = 1 && le16 lo b ≠ ck
    | _, _ => false
  | .frameRead _ _ _ _ | .frameWrite _ _ _ _ | .rxNoise _ | .rxMarker | .rxFlagsLo _ | .parserReset | .feed _
  | .frameGet | .checksum _ | .encode _ _ _ | .reqLoad _ _ | .waitFrame _ _ | .transact _ => true

/-! ### The words of spec/opcode_table.json -/

/-- The `n` low bytes of a number, the lowest first (R91: byte 0 of a frame is bits 7:0 of the header word). -/
def bytesOfNat : Nat → Nat → List Byte
  | 0, _ => []
  | n + 1, w => BitVec.ofNat 8 w :: bytesOfNat n (w / 256)

/-- The length field of a header word's two flags bytes, for the number of zero bytes that complete the frame. -/
def headerTailLength (w : Nat) : Nat := (flagsField (BitVec.ofNat 16 (w / 256))).toNat + 1

/-- The words whose bits, numbered as the opcode table numbers them, are `w`: an operation select code (8 bits, ports at
zero), a decode key (16 bits), a frame's header word (32 bits) with every later byte zero. A number that is no word of
its format is a request of R9's "any other" kind. -/
def tableWords (nbits w : Nat) : Words :=
  if nbits = 8 ∧ w < 8 then opCall (BitVec.ofNat 3 w) 0 false [] 0
  else if nbits = 16 ∧ w < 2048 ∧ (parserStateOf (keyCode (BitVec.ofNat 11 w))).isSome then .key (BitVec.ofNat 11 w)
  else if nbits = 32 then .call (.frame (bytesOfNat 4 w ++ List.replicate (headerTailLength w) 0))
  else .call (.other [])

/-- The context of a table word that is a decode key: the parser holds the header `AA 40 00` of the shortest frame, as
far as its state has got (log 7). -/
def tableContext : RxContext := { flagsLo := some 0x40, rem := 3, ckLo := none, ckCalc := none }

/-- The instruction the decoder reads from an opcode-table word. -/
def decodeTableWord (nbits w : Nat) : Option Instr :=
  match decode tableContext (tableWords nbits w) with
  | .ok i => some i
  | .error _ => none

end Sys2Proof
end

