-- ==== Sys2Proof/Machine/State.lean ====
section
/-! DEFINITION. The state of the block as plain data: the registers of spec/10_state.md, the environment's answers
(spec/00_scope.md R14) and the host interface (spec/30_encoding.md R105); the reasons a step stops; the state after
power-on reset (spec/10_state.md R43, spec/70_reset_and_hazards.md R240). -/

namespace Sys2Proof.Machine

open Sys2Proof

/-- A byte space as a list of cells, addresses strictly rising. An address not listed holds no value: R43 gives the two
buffers no contents at power-on, "undefined, unreadable" (log 2). -/
abbrev Memory := List Host.Cell

/-- The canonical form: addresses strictly rising. No listed cell can equal what an unlisted address reads as, since
that is no value. -/
abbrev Memory.wf (m : Memory) : Prop := m.Pairwise fun x y => x.1 < y.1

/-- Every listed address lies in a space of `n` bytes (spec/20_memory.md R60). -/
abbrev Memory.within (n : Nat) (m : Memory) : Prop := ∀ c ∈ m, c.1 < n

/-- The parser registers (R21 to R25, R30). -/
structure ParserRegs where
  /-- `ps` (R21). -/
  ps : ParserState
  /-- `buf` (R22). -/
  buf : Memory
  /-- `wr_idx` (R23; log 20). -/
  wrIdx : Nat
  /-- `rem` (R24; log 20). -/
  rem : Nat
  /-- `cmd_latched` (R25). -/
  cmdLatched : Byte
  /-- `frame_ok` (R30). -/
  frameOk : Bool
deriving DecidableEq, Repr

/-- The current-request registers (R32, R33). -/
structure RequestRegs where
  /-- `req_valid` (R32). -/
  valid : Bool
  /-- `req_cmd` (R33). -/
  cmd : Byte
  /-- `req_len` (R33; log 20). -/
  len : Nat
  /-- `req_bytes` (R33). -/
  bytes : Memory
deriving DecidableEq, Repr

/-- The reader's working registers (R35). -/
structure ReaderRegs where
  /-- `expect`. -/
  expect : Byte
  /-- `to_val`. -/
  toVal : Time
  /-- `wmode`: true = blocking. -/
  wmode : Bool
  /-- `t_deadline`. -/
  tDeadline : Time
deriving DecidableEq, Repr

/-- On whose behalf a wait loop runs: a `WAIT_FRAME` of the host, or an attempt of a `TRANSACT` with its timeout
argument (R36 "on its own or inside an attempt"; R40 (d); log 12). -/
inductive Waiter where
  | host
  | transact (timeout : Time)
deriving DecidableEq, Repr

/-- `cs`, the correlator phase (R36). -/
inductive Phase where
  /-- `C_IDLE`. -/
  | idle
  /-- `C_SEND`: a `TRANSACT` with this timeout argument is about to start an attempt. -/
  | send (timeout : Time)
  /-- `C_WAIT`: a wait loop is running. -/
  | wait (who : Waiter)
deriving DecidableEq, Repr

/-- `status` (R37; spec/60_exceptions.md R215). -/
inductive Status where
  | ok
  | noFrame
  | timeout
  | protocolState
deriving DecidableEq, Repr

/-- The two raised failures (spec/00_scope.md R13; spec/60_exceptions.md R212, R213). -/
inductive Failure where
  | timeout
  | protocolState
deriving DecidableEq, Repr

/-- A `Frame` value (spec/42_decoder.md R162). -/
structure Frame where
  cmd : Byte
  write : Bool
  flagsRaw : U16
  payload : List Byte
deriving DecidableEq, Repr

/-- What a `FEED` returns (spec/42_decoder.md R150). -/
inductive FeedResult where
  | frameReady
  | incomplete
deriving DecidableEq, Repr

/-- What an operation delivers on its result ports (spec/30_encoding.md R105; spec/60_exceptions.md R216). -/
inductive OpResult where
  /-- The end of an operation whose result is none: `PARSER_RESET`, `REQ_LOAD`. -/
  | done
  | ready (r : FeedResult)
  | frame (f : Frame)
  | checksum (ck : U16)
  | bytes (s : List Byte)
  /-- `Some(Frame)` or `None` of `WAIT_FRAME`. -/
  | waited (f : Option Frame)
  /-- `Ok(payload)` of `TRANSACT`. -/
  | payload (s : List Byte)
  | raised (e : Failure)
  /-- The positions at which `feedall` saw `FrameReady` (R107). -/
  | readyAt (positions : List Nat)
deriving DecidableEq, Repr

/-- The environment (spec/10_state.md R40 (b), (c)): what the transport and the time base will answer (log 3, 4), and
the history of writes (log 5). -/
structure Env where
  /-- The answers of the coming `RxPoll` calls, oldest first. -/
  polls : List (Option Byte)
  /-- How many free answers have been drawn after the list ran out. -/
  pollCount : Nat
  /-- How far the time base moves before each of the coming `Now` calls. -/
  ticks : List Time
  /-- How many free advances have been drawn after the list ran out. -/
  tickCount : Nat
  /-- What `Now` answered last. -/
  time : Time
  /-- The `TxWrite` events, oldest first. -/
  tx : List (List Byte)
deriving DecidableEq, Repr

/-- The state of the block and of what it is connected to. -/
structure State where
  parser : ParserRegs
  /-- `ck_acc` (R27). -/
  ckAcc : U16
  req : RequestRegs
  /-- `attempt` (R34; log 20). -/
  attempt : Nat
  reader : ReaderRegs
  /-- `cs` (R36). -/
  cs : Phase
  /-- `status` (R37). -/
  status : Status
  env : Env
  /-- The calls the host has still to make, one at a time (R5; log 6). -/
  host : List HostCall
  /-- What the last received byte returned (log 13). -/
  feedOut : FeedResult
  /-- The result ports; none while no result has been delivered (log 13). -/
  result : Option OpResult
deriving DecidableEq, Repr

/-- Why the machine stops with a fault. -/
inductive Fault where
  /-- An append outside the frame buffer (spec/20_memory.md R66), raised by the received-byte classes that append. Safe:
  spec/10_state.md R42 item I6 says it never happens (log 15). -/
  | bufOverflow (offset : Nat)
deriving DecidableEq, Repr

/-- Why a request is given no meaning (spec/00_scope.md R13 `refuse`). -/
inductive Refusal where
  /-- An instruction without a meaning, rejected by name in `exec`. Safe. -/
  | notModelled (mnemonic : String)
  /-- An operation requested while `cs` is not `C_IDLE` (spec/60_exceptions.md R225), raised by every host operation.
  Safe. -/
  | busy
  /-- `FRAME_GET` with `frame_ok = 0` (spec/42_decoder.md R162, R163). Safe. -/
  | noFrame
  /-- `ENCODE` with more than 1016 payload bytes (spec/41_encoder.md R143). Safe. -/
  | payloadTooLong
  /-- `REQ_LOAD` with more than 1022 bytes (spec/44_correlator.md R190). Safe. -/
  | requestTooLong
  /-- A read of `buf` at an offset that holds no value (spec/10_state.md R22, R43), raised by reads of the buffer; no
  rule makes one. Safe. -/
  | unreadable (offset : Nat)
  /-- A read of the request registers while `req_valid = 0`, or of a request byte without a value: R43 gives them no value
  and says the read is refused (also R33; spec/92_eei_decisions.md D10; spec/93_implementation_defined.md U15). Raised by
  `hostRead`, and by the start of an attempt in states no run reaches. Safe. -/
  | requestUnreadable
  /-- A received-byte class in a state where spec/30_encoding.md R104 gives the byte another class (log 9). Safe. -/
  | otherClass
  /-- Words that are no instruction, raised by the fetch (spec/00_scope.md R9) and by `FEED` in a parser state no run
  reaches. Safe. -/
  | undecodable (e : DecodeError)
deriving DecidableEq, Repr

/-- The outcome of an instruction. -/
abbrev Out := Host.Outcome State Fault Refusal

/-- The parser registers after power-on reset (R43). -/
def ParserRegs.reset : ParserRegs :=
  { ps := .hunting, buf := [], wrIdx := 0, rem := 0, cmdLatched := 0, frameOk := false }

/-- The request registers after power-on reset (R43); the values of `cmd` and `len` are log 1's. -/
def RequestRegs.reset : RequestRegs := { valid := false, cmd := 0, len := 0, bytes := [] }

/-- The reader's registers after power-on reset (R43). -/
def ReaderRegs.reset : ReaderRegs := { expect := 0, toVal := 0, wmode := false, tDeadline := 0 }

/-- Nothing listed: every answer of the environment is a free value (log 3, 4, 5). -/
def Env.reset : Env := { polls := [], pollCount := 0, ticks := [], tickCount := 0, time := 0, tx := [] }

/-- The machine after power-on reset (R43, R240): idle, waiting for an operation. -/
def State.reset : State :=
  { parser := .reset, ckAcc := Config.ckInit, req := .reset, attempt := 0, reader := .reset, cs := .idle,
    status := .ok, env := .reset, host := [], feedOut := .incomplete, result := none }

end Sys2Proof.Machine
end

