-- ==== Sys2Proof/Machine/Ops.lean ====
section
/-! DEFINITION. The named operations over memory, registers and the environment; delivering a result; raising a
failure, the block's one way of taking an exception (spec/60_exceptions.md R212, R213, R221); the end of an operation
(R222). -/

namespace Sys2Proof.Machine

open Sys2Proof

/-! ### Byte spaces -/

/-- The byte at an address, if one was written there. -/
def Memory.read : Memory → Nat → Option Byte
  | [], _ => none
  | (a, v) :: m, k => if a = k then some v else Memory.read m k

/-- Writes one byte, keeping the addresses strictly rising. -/
def Memory.write : Memory → Nat → Byte → Memory
  | [], k, v => [(k, v)]
  | (a, x) :: m, k, v =>
    if k < a then (k, v) :: (a, x) :: m
    else if k = a then (k, v) :: m
    else (a, x) :: Memory.write m k v

/-- The `n` bytes from an address on, if all were written. -/
def Memory.readSeq (m : Memory) (a : Nat) : Nat → Option (List Byte)
  | 0 => some []
  | n + 1 =>
    match m.read a, Memory.readSeq m (a + 1) n with
    | some v, some l => some (v :: l)
    | _, _ => none

/-- Writes a sequence of bytes from an address on. -/
def Memory.writeSeq : Memory → Nat → List Byte → Memory
  | m, _, [] => m
  | m, a, v :: l => Memory.writeSeq (m.write a v) (a + 1) l

/-! ### State updates, one per field -/

def State.setParser (s : State) (p : ParserRegs) : State := { s with parser := p }
def State.setCkAcc (s : State) (v : U16) : State := { s with ckAcc := v }
def State.setReq (s : State) (r : RequestRegs) : State := { s with req := r }
def State.setAttempt (s : State) (n : Nat) : State := { s with attempt := n }
def State.setReader (s : State) (r : ReaderRegs) : State := { s with reader := r }
def State.setCs (s : State) (c : Phase) : State := { s with cs := c }
def State.setStatus (s : State) (c : Status) : State := { s with status := c }
def State.setEnv (s : State) (e : Env) : State := { s with env := e }
def State.setHost (s : State) (l : List HostCall) : State := { s with host := l }
def State.setFeedOut (s : State) (r : FeedResult) : State := { s with feedOut := r }
def State.setResult (s : State) (r : Option OpResult) : State := { s with result := r }

/-! ### The frame buffer -/

/-- `buf[i]`: only the bytes below `wr_idx` have a value (R22, R67). -/
def ParserRegs.readBuf (p : ParserRegs) (i : Nat) : Option Byte :=
  if i < p.wrIdx then p.buf.read i else none

/-- `buf[i .. j]`, the bytes of indices `i` to `j - 1` (spec/00_scope.md R10), all below `wr_idx`. -/
def ParserRegs.readRange (p : ParserRegs) (i j : Nat) : Option (List Byte) :=
  if j ≤ p.wrIdx then p.buf.readSeq i (j - i) else none

/-- `MemRead(a, 2)`: two bytes of the buffer, little-endian (spec/00_scope.md R12). -/
def ParserRegs.read16 (p : ParserRegs) (a : Nat) : Option U16 :=
  match p.readBuf a, p.readBuf (a + 1) with
  | some lo, some hi => some (le16 lo hi)
  | _, _ => none

/-- `Append(b)` on the registers: `MemWrite(wr_idx, 1, b)`, then the increment (spec/20_memory.md R66). -/
def ParserRegs.append (p : ParserRegs) (b : Byte) : ParserRegs :=
  { p with buf := p.buf.write p.wrIdx b, wrIdx := p.wrIdx + 1 }

/-- `Clear()`: `wr_idx <- 0`; the bytes stay and become unreadable (R66; log 21). -/
def ParserRegs.clear (p : ParserRegs) : ParserRegs := { p with wrIdx := 0 }

/-- `Append(b)` and what follows it: an append outside the buffer faults. -/
def appendThen (b : Byte) (s : State) (k : State → Out) : Out :=
  if s.parser.wrIdx < Config.bufBytes then k (s.setParser (s.parser.append b))
  else .fault (.bufOverflow s.parser.wrIdx)

/-- A read of one byte of the buffer and what follows it: a byte without a value is refused (R43). -/
def readThen (i : Nat) (s : State) (k : Byte → Out) : Out :=
  match s.parser.readBuf i with
  | some v => k v
  | none => .refused (.unreadable i)

/-! ### The environment primitives (spec/00_scope.md R14) -/

/-- `RxPoll()`: the next answer, and the environment after it. A delivered byte is gone (spec/20_memory.md R65). -/
def Env.rxPoll (e : Env) : Option Byte × Env :=
  match e.polls with
  | a :: rest => (a, { e with polls := rest })
  | [] => (Config.freePoll e.pollCount, { e with pollCount := e.pollCount + 1 })

/-- `Now()`: the time base moves on by some natural number of ticks, then answers its value; it never decreases. -/
def Env.now (e : Env) : Time × Env :=
  match e.ticks with
  | d :: rest => (e.time + d, { e with ticks := rest, time := e.time + d })
  | [] => (e.time + Config.freeTick e.tickCount,
      { e with tickCount := e.tickCount + 1, time := e.time + Config.freeTick e.tickCount })

/-- `TxWrite(s)`: one event carrying the whole sequence (spec/20_memory.md R63). -/
def Env.txWrite (e : Env) (bytes : List Byte) : Env := { e with tx := e.tx ++ [bytes] }

/-! ### Starting and ending an operation -/

/-- A host operation is given a meaning only while no other one runs (spec/60_exceptions.md R225). -/
def whenIdle (s : State) (k : Out) : Out :=
  match s.cs with
  | .idle => k
  | .send _ => .refused .busy
  | .wait _ => .refused .busy

/-- The end of an operation that does not block: its result is on the ports. -/
def deliver (s : State) (r : OpResult) : State := s.setResult (some r)

/-- The end of a blocking operation (spec/60_exceptions.md R222): `cs <- C_IDLE`, the status code, the result. -/
def finish (s : State) (st : Status) (r : OpResult) : State :=
  ((s.setCs .idle).setStatus st).setResult (some r)

/-- The status code of a failure (spec/60_exceptions.md R215). -/
def Failure.status : Failure → Status
  | .timeout => .timeout
  | .protocolState => .protocolState

/-- Raising a failure, the block's only exception entry (spec/60_exceptions.md R212, R213, R221): no state is saved and
control goes nowhere; the operation ends, `status` takes the failure's code and the host receives the failure. There is
no return operation (R222). -/
def raise (s : State) (e : Failure) : State := finish s e.status (.raised e)

end Sys2Proof.Machine
end

