-- ==== Sys2Proof/Machine/Checksum.lean ====
section
/-! DEFINITION. The checksum-16 engine and the meaning of `CHECKSUM` (spec/40_checksum.md). What uses the engine takes the
configuration function `CK_STEP` as its last argument, at its default where none is given (R127). -/

namespace Sys2Proof.Machine

open Sys2Proof

/-- `CHECKSUM(s)`: a left fold of `CK_STEP` from `CK_INIT` (R120, R128). -/
def checksum (bytes : List Byte) (ck : Config.CkStep := Config.ckStep) : U16 := bytes.foldl ck Config.ckInit

/-- `CHECKSUM` (R120) with any `CK_STEP` (R127): the accumulator runs over the bytes and its value is the result; nothing
else changes (R126). -/
def execChecksumBy (ck : Config.CkStep) (bytes : List Byte) (s : State) : Out :=
  whenIdle s (.next (deliver (s.setCkAcc (checksum bytes ck)) (.checksum (checksum bytes ck))))

/-- `CHECKSUM` (R120). -/
def execChecksum (bytes : List Byte) (s : State) : Out := execChecksumBy Config.ckStep bytes s

end Sys2Proof.Machine
end

