-- ==== Sys2Proof/Machine/Flags.lean ====
section
/-! DEFINITION. The status flags `frame_ok`, `write` and `req_valid` (spec/10_state.md R30 to R32), the code numbers of
the status-like registers, and the two comparisons a rule decides by: the checksum verification (spec/42_decoder.md R157)
and the timeout comparator (spec/43_streaming_reader.md R188). -/

namespace Sys2Proof.Machine

open Sys2Proof

/-- A marker taken in `HUNTING` clears `frame_ok` (R30, R152). -/
def ParserRegs.dropFrame (p : ParserRegs) : ParserRegs := { p with frameOk := false }

/-- A good last byte sets `frame_ok` and latches the command identifier (R25, R30, R157). -/
def ParserRegs.latchFrame (p : ParserRegs) (cmd : Byte) : ParserRegs := { p with cmdLatched := cmd, frameOk := true }

/-- The derived flag `write`, bit 0 of the latched frame's flags (R31); it has a value only while `frame_ok = 1`. -/
def ParserRegs.writeFlag (p : ParserRegs) : Option Bool :=
  if p.frameOk then (p.read16 1).map flagsWrite else none

/-- `le16(buf[wr_idx-2], buf[wr_idx-1])`, the stored checksum of a completed frame (R26, R67). -/
def ParserRegs.ckStored (p : ParserRegs) : Option U16 := p.read16 (p.wrIdx - 2)

/-- `CHECKSUM(buf[0 .. wr_idx-2])`, the checksum of the covered bytes (R67, R157). -/
def ParserRegs.ckCovered (p : ParserRegs) (ck : Config.CkStep := Config.ckStep) : Option U16 :=
  (p.readRange 0 (p.wrIdx - 2)).map fun l => checksum l ck

/-- The timeout comparator, `Now() >= t_deadline` (R188). -/
def expired (now tDeadline : Time) : Bool := tDeadline ≤ now

/-- The code of `cs` (R36). -/
def Phase.code : Phase → BitVec 2
  | .idle => 0
  | .send _ => 1
  | .wait _ => 2

/-- The code of `status` (spec/60_exceptions.md R215). -/
def Status.code : Status → BitVec 3
  | .ok => 0
  | .noFrame => 1
  | .timeout => 2
  | .protocolState => 3

end Sys2Proof.Machine
end

