-- ==== Sys2Proof/Machine/Operands.lean ====
section
/-! DEFINITION. The operand forms: the context a received byte is classified in (spec/30_encoding.md R104), the views of
the latched frame (spec/10_state.md R26), the loaded request (R33), and the registers the host may read (R38). -/

namespace Sys2Proof.Machine

open Sys2Proof

/-- What the parser's registers give the decode table before a byte is taken: `buf[1]`, `rem`, `buf[wr_idx-1]` and the
checksum of `buf[0 .. wr_idx-1]` (opcode_table.json, the conditions of `RX_LAST_OK` and `RX_LAST_BAD`). -/
def rxContext (p : ParserRegs) (ck : Config.CkStep := Config.ckStep) : RxContext :=
  { flagsLo := p.readBuf 1
    rem := p.rem
    ckLo := p.readBuf (p.wrIdx - 1)
    ckCalc := (p.readRange 0 (p.wrIdx - 1)).map fun l => checksum l ck }

/-- The class R104 gives byte `b` in the parser's present state. -/
def rxClass (p : ParserRegs) (b : Byte) (ck : Config.CkStep := Config.ckStep) : Except DecodeError RxClass :=
  classify (rxContext p ck) p.ps b

/-- `flags_raw = le16(buf[1], buf[2])` (R26). -/
def ParserRegs.flagsRaw (p : ParserRegs) : Option U16 := p.read16 1

/-- `count` of the buffered header (R26). -/
def ParserRegs.count (p : ParserRegs) : Option Nat := p.flagsRaw.map flagsCount

/-- `payload = buf[4 .. wr_idx - 2]` (R26). -/
def ParserRegs.payload (p : ParserRegs) : Option (List Byte) := p.readRange 4 (p.wrIdx - 2)

/-- The latched frame as a value (spec/42_decoder.md R162): refused while `frame_ok = 0`. -/
def latchedFrame (p : ParserRegs) : Except Refusal Frame :=
  if p.frameOk then
    match p.flagsRaw, p.payload with
    | some f, some l => .ok { cmd := p.cmdLatched, write := flagsWrite f, flagsRaw := f, payload := l }
    | none, _ => .error (.unreadable 1)
    | _, none => .error (.unreadable 4)
  else .error .noFrame

/-- `req_bytes[0 .. req_len]` (R33): no value while no request is loaded. -/
def RequestRegs.sequence (r : RequestRegs) : Option (List Byte) :=
  if r.valid then r.bytes.readSeq 0 r.len else none

/-- The registers the host reads directly (R38: "Host access: read"). -/
inductive HostReg where
  | reqValid
  | reqCmd
  | reqLen
  | attempt
  | status
  | frameOk
deriving DecidableEq, Repr

/-- A host read of a register (R38). While an operation runs the host is blocked (R36; log 22), and the request
registers have no value before the first `REQ_LOAD`, so that a read of them is refused until then (R33, R43;
spec/92_eei_decisions.md D10; spec/93_implementation_defined.md U15). -/
def hostRead (r : HostReg) (s : State) : Except Refusal Nat :=
  match s.cs with
  | .send _ => .error .busy
  | .wait _ => .error .busy
  | .idle =>
    match r with
    | .reqValid => .ok s.req.valid.toNat
    | .reqCmd => if s.req.valid then .ok s.req.cmd.toNat else .error .requestUnreadable
    | .reqLen => if s.req.valid then .ok s.req.len else .error .requestUnreadable
    | .attempt => .ok s.attempt
    | .status => .ok s.status.code.toNat
    | .frameOk => .ok s.parser.frameOk.toNat

end Sys2Proof.Machine
end

