-- ==== Sys2Proof/Machine/Parser.lean ====
section
/-! DEFINITION. The frame decoder: the eight received-byte classes, `FEED`, `PARSER_RESET` and `FRAME_GET`
(spec/42_decoder.md). What may end in the checksum's verification is written for any `CK_STEP` (`…By`; spec/40_checksum.md
R127). -/

namespace Sys2Proof.Machine

open Sys2Proof

/-- A received-byte class is executed in the states in which R104 gives the byte that class; elsewhere it is refused
(log 9). -/
def inClass (ck : Config.CkStep) (cl : RxClass) (b : Byte) (s : State) (k : Out) : Out :=
  match rxClass s.parser b ck with
  | .ok c => if c = cl then k else .refused .otherClass
  | .error e => .refused (.undecodable e)

/-- `return Incomplete`. -/
def incomplete (s : State) : Out := .next (s.setFeedOut .incomplete)

/-- `ps <- x` (R21). -/
def setPs (s : State) (x : ParserState) : State := s.setParser { s.parser with ps := x }

/-- `rem <- n` (R24). -/
def setRem (s : State) (n : Nat) : State := s.setParser { s.parser with rem := n }

/-- `RX_NOISE` (R151): nothing changes. -/
def execRxNoiseBy (ck : Config.CkStep) (b : Byte) (s : State) : Out :=
  inClass ck .noise b s (incomplete s)

/-- `RX_MARKER` (R152): clear the buffer, drop the latched frame, append the marker. -/
def execRxMarkerBy (ck : Config.CkStep) (s : State) : Out :=
  inClass ck .marker Config.marker s <|
    appendThen Config.marker (s.setParser s.parser.clear.dropFrame) fun s1 =>
      incomplete (setPs s1 .gotMarker)

/-- `RX_FLAGS_LO` (R153). -/
def execRxFlagsLoBy (ck : Config.CkStep) (b : Byte) (s : State) : Out :=
  inClass ck .flagsLo b s <|
    appendThen b s fun s1 => incomplete (setPs s1 .gotFlagsLow)

/-- `RX_FLAGS_HI_OK` (R154): `rem <- count` of the two buffered flags bytes. -/
def execRxFlagsHiOkBy (ck : Config.CkStep) (b : Byte) (s : State) : Out :=
  inClass ck .flagsHiOk b s <|
    appendThen b s fun s1 => readThen 1 s1 fun lo => readThen 2 s1 fun hi =>
      incomplete (setPs (setRem s1 (flagsCount (le16 lo hi))) .accumulating)

/-- `RX_FLAGS_HI_BAD` (R155, R210): the length is out of range; back to hunting in this same step, no error. -/
def execRxFlagsHiBadBy (ck : Config.CkStep) (b : Byte) (s : State) : Out :=
  inClass ck .flagsHiBad b s <|
    appendThen b s fun s1 => incomplete (setPs (setRem s1 0) .hunting)

/-- `RX_BODY` (R156). -/
def execRxBodyBy (ck : Config.CkStep) (b : Byte) (s : State) : Out :=
  inClass ck .body b s <|
    appendThen b s fun s1 => incomplete (setRem s1 (s1.parser.rem - 1))

/-- Runs the checksum engine over the covered bytes of a completed frame (R128, R157): `ck_acc` holds the value
(log 10). -/
def verifyThen (ck : Config.CkStep) (s : State) (k : State → Out) : Out :=
  match s.parser.ckCovered ck with
  | some v => k (s.setCkAcc v)
  | none => .refused (.unreadable 0)

/-- `RX_LAST_OK` (R157): the checksum matches; latch the command, set `frame_ok`, back to hunting, `FrameReady`. -/
def execRxLastOkBy (ck : Config.CkStep) (b : Byte) (s : State) : Out :=
  inClass ck .lastOk b s <|
    appendThen b s fun s1 => verifyThen ck (setRem s1 0) fun s2 => readThen 3 s2 fun cmd =>
      .next ((setPs (s2.setParser (s2.parser.latchFrame cmd)) .hunting).setFeedOut .frameReady)

/-- `RX_LAST_BAD` (R158, R211): the checksum differs; back to hunting, no error. -/
def execRxLastBadBy (ck : Config.CkStep) (b : Byte) (s : State) : Out :=
  inClass ck .lastBad b s <|
    appendThen b s fun s1 => verifyThen ck (setRem s1 0) fun s2 => incomplete (setPs s2 .hunting)

/-! The eight classes at the default `CK_STEP`: the meanings of their rows. -/

/-- `RX_NOISE` (R151). -/
def execRxNoise (b : Byte) (s : State) : Out := execRxNoiseBy Config.ckStep b s

/-- `RX_MARKER` (R152). -/
def execRxMarker (s : State) : Out := execRxMarkerBy Config.ckStep s

/-- `RX_FLAGS_LO` (R153). -/
def execRxFlagsLo (b : Byte) (s : State) : Out := execRxFlagsLoBy Config.ckStep b s

/-- `RX_FLAGS_HI_OK` (R154). -/
def execRxFlagsHiOk (b : Byte) (s : State) : Out := execRxFlagsHiOkBy Config.ckStep b s

/-- `RX_FLAGS_HI_BAD` (R155). -/
def execRxFlagsHiBad (b : Byte) (s : State) : Out := execRxFlagsHiBadBy Config.ckStep b s

/-- `RX_BODY` (R156). -/
def execRxBody (b : Byte) (s : State) : Out := execRxBodyBy Config.ckStep b s

/-- `RX_LAST_OK` (R157). -/
def execRxLastOk (b : Byte) (s : State) : Out := execRxLastOkBy Config.ckStep b s

/-- `RX_LAST_BAD` (R158). -/
def execRxLastBad (b : Byte) (s : State) : Out := execRxLastBadBy Config.ckStep b s

/-- The parser takes one byte (R150): exactly one of R151 to R158 applies. Used by `FEED`, by the wait loop and by
`feedall`. -/
def feedByte (b : Byte) (s : State) (ck : Config.CkStep := Config.ckStep) : Out :=
  match rxClass s.parser b ck with
  | .error e => .refused (.undecodable e)
  | .ok .noise => execRxNoiseBy ck b s
  | .ok .marker => execRxMarkerBy ck s
  | .ok .flagsLo => execRxFlagsLoBy ck b s
  | .ok .flagsHiOk => execRxFlagsHiOkBy ck b s
  | .ok .flagsHiBad => execRxFlagsHiBadBy ck b s
  | .ok .body => execRxBodyBy ck b s
  | .ok .lastOk => execRxLastOkBy ck b s
  | .ok .lastBad => execRxLastBadBy ck b s

/-- What follows a byte the parser has taken. -/
def afterFeed (o : Out) (k : State → Out) : Out :=
  match o with
  | .next s => k s
  | .fault r => .fault r
  | .refused r => .refused r

/-- `FEED` (R150) with any `CK_STEP` (R127): the parser takes the byte, and the port `ready` shows what it returned. -/
def execFeedBy (ck : Config.CkStep) (b : Byte) (s : State) : Out :=
  whenIdle s <| afterFeed (feedByte b s ck) fun s1 => .next (deliver s1 (.ready s1.feedOut))

/-- `FEED` (R150). -/
def execFeed (b : Byte) (s : State) : Out := execFeedBy Config.ckStep b s

/-- The parser reset: `ps <- HUNTING; rem <- 0`, nothing else (R160, R241). -/
def resetParser (s : State) : State := setPs (setRem s 0) .hunting

/-- `PARSER_RESET` (R160). -/
def execParserReset (s : State) : Out :=
  whenIdle s (.next (deliver (resetParser s) .done))

/-- `FRAME_GET` (R162): the latched frame; refused while `frame_ok = 0` (R163); no state changes. -/
def execFrameGet (s : State) : Out :=
  whenIdle s <|
    match latchedFrame s.parser with
    | .ok f => .next (deliver s (.frame f))
    | .error r => .refused r

end Sys2Proof.Machine
end

