-- ==== Sys2Proof/Machine/Reader.lean ====
section
/-! DEFINITION. The streaming reader: `WAIT_FRAME` and the step of its loop (spec/43_streaming_reader.md). -/

namespace Sys2Proof.Machine

open Sys2Proof

/-- Entry of a wait (R180, R188): `expect`, `to_val`, `wmode`, `cs <- C_WAIT`, and in blocking mode
`t_deadline <- Now() + timeout`. `Now()` is not called when the timeout is 0 (R181). The parser is left as it is
(R185). -/
def beginWait (who : Waiter) (expect : Byte) (timeout : Time) (s : State) : State :=
  let s1 := s.setCs (.wait who)
  if 0 < timeout then
    (s1.setEnv s.env.now.2).setReader
      { expect := expect, toVal := timeout, wmode := true, tDeadline := s.env.now.1 + timeout }
  else s1.setReader { s.reader with expect := expect, toVal := timeout, wmode := false }

/-- `WAIT_FRAME` (R180): the wait begins; each following step is one poll and its consequences (R182; log 19). The
result ports hold nothing while it runs (log 13). -/
def execWaitFrame (expect : Byte) (timeout : Time) (s : State) : Out :=
  whenIdle s (.next (beginWait .host expect timeout (s.setResult none)))

/-- A matching frame ends the wait (R186): the host's `WAIT_FRAME` returns a copy of the frame (R187), a `TRANSACT`
returns its payload (spec/44_correlator.md R195); both with `status = ST_OK`. -/
def waitMatched (who : Waiter) (s : State) : Out :=
  match latchedFrame s.parser with
  | .error r => .refused r
  | .ok f =>
    match who with
    | .host => .next (finish s .ok (.waited (some f)))
    | .transact _ => .next (finish s .ok (.payload f.payload))

/-- The wait ends with `None` (R180, R181): for the host that is the result; for a `TRANSACT` the attempt is consumed
and the next one is due (spec/44_correlator.md R194), the `ST_NONE` being overwritten before the operation ends
(spec/60_exceptions.md R215; log 14). -/
def waitNone (who : Waiter) (s : State) : State :=
  match who with
  | .host => finish s .noFrame (.waited none)
  | .transact t => (s.setStatus .noFrame).setCs (.send t)

/-- The match criterion, examined after a byte was taken (R183): `FrameReady` and `cmd_latched = expect`. -/
def matched (s : State) : Bool := s.feedOut = .frameReady && s.parser.cmdLatched = s.reader.expect

/-- What the wait does after the parser took the polled byte (R182): return the frame if it matches, else go on. -/
def afterByte (who : Waiter) (o : Out) : Out :=
  afterFeed o fun s => if matched s then waitMatched who s else .next s

/-- What the wait does at an empty poll (R182): non-blocking, it ends; blocking, it ends if a fresh `Now()` has reached
the deadline, else it goes on. This is the only place the deadline is looked at (R261). -/
def emptyPoll (who : Waiter) (s : State) : State :=
  if s.reader.wmode then
    let s1 := s.setEnv s.env.now.2
    if expired s.env.now.1 s.reader.tDeadline then waitNone who s1 else s1
  else waitNone who s

/-- One iteration of the wait loop, `WaitStep(RxPoll(), Now())` (R182). -/
def waitStep (who : Waiter) (s : State) (ck : Config.CkStep := Config.ckStep) : Out :=
  let s1 := s.setEnv s.env.rxPoll.2
  match s.env.rxPoll.1 with
  | some b => afterByte who (feedByte b s1 ck)
  | none => .next (emptyPoll who s1)

end Sys2Proof.Machine
end

