-- ==== Sys2Proof/Machine/Correlator.lean ====
section
/-! DEFINITION. The request/response correlator: `REQ_LOAD`, `TRANSACT` and the step that starts an attempt
(spec/44_correlator.md). -/

namespace Sys2Proof.Machine

open Sys2Proof

/-- `REQ_LOAD` (R190): the request is replaced whole, unparsed; more than 1022 bytes are refused. -/
def execReqLoad (cmd : Byte) (bytes : List Byte) (s : State) : Out :=
  whenIdle s <|
    if bytes.length ≤ Config.reqBytes then
      .next (deliver (s.setReq
        { valid := true, cmd := cmd, len := bytes.length, bytes := s.req.bytes.writeSeq 0 bytes }) .done)
    else .refused .requestTooLong

/-- `TRANSACT` (R192, R194 "start"): with no request loaded it raises `ProtocolState` and touches nothing but `attempt`
and `status` (R197); else the first attempt is due. The result ports hold nothing while it runs (log 13). -/
def execTransact (timeout : Time) (s : State) : Out :=
  whenIdle s <|
    if s.req.valid then .next (((s.setAttempt 0).setCs (.send timeout)).setResult none)
    else .next (raise (s.setAttempt 0) .protocolState)

/-- The start of an attempt (R193, R194 "cs = C_SEND"), one atomic step: with the budget used up it raises `Timeout`
(R196); else write the whole request, reset the parser, count the attempt, begin the wait, in that order
(spec/20_memory.md R71). -/
def sendStep (timeout : Time) (s : State) : Out :=
  if s.attempt < Config.retryBudget then
    match s.req.sequence with
    | some bytes =>
      let s1 := s.setEnv (s.env.txWrite bytes)
      let s2 := resetParser s1
      let s3 := s2.setAttempt (s2.attempt + 1)
      .next (beginWait (.transact timeout) s3.req.cmd timeout s3)
    | none => .refused .requestUnreadable
  else .next (raise s .timeout)

end Sys2Proof.Machine
end

