-- ==== Sys2Proof/Machine/Encoder.lean ====
section
/-! DEFINITION. The frame encoder and the meaning of `ENCODE` (spec/41_encoder.md). -/

namespace Sys2Proof.Machine

open Sys2Proof

/-- `flags = (1 + L) << 6 | w` for a payload of `L` bytes (R141). -/
def encodeFlags (isWrite : Bool) (length : Nat) : U16 :=
  (BitVec.ofNat 16 (1 + length) <<< Config.lenShift) ||| (if isWrite then BitVec.twoPow 16 Config.writeBit else 0)

/-- The covered bytes: marker, flags low byte first, command, payload (R142). -/
def encodeCovered (cmd : Byte) (isWrite : Bool) (payload : List Byte) : List Byte :=
  let f := encodeFlags isWrite payload.length
  [Config.marker, lo8 f, hi8 f, cmd] ++ payload

/-- The frame: the covered bytes and their checksum, low byte first (R142). -/
def encodeFrame (cmd : Byte) (isWrite : Bool) (payload : List Byte) (ck : Config.CkStep := Config.ckStep) : List Byte :=
  let covered := encodeCovered cmd isWrite payload
  covered ++ [lo8 (checksum covered ck), hi8 (checksum covered ck)]

/-- `ENCODE` (R140) with any `CK_STEP` (R127): a payload over 1016 bytes is refused (R143), else the frame is the result
and no state of the block changes (R140, R144; log 10). -/
def execEncodeBy (ck : Config.CkStep) (cmd : Byte) (isWrite : Bool) (payload : List Byte) (s : State) : Out :=
  whenIdle s <|
    if payload.length ≤ Config.payloadMax then .next (deliver s (.bytes (encodeFrame cmd isWrite payload ck)))
    else .refused .payloadTooLong

/-- `ENCODE` (R140). -/
def execEncode (cmd : Byte) (isWrite : Bool) (payload : List Byte) (s : State) : Out :=
  execEncodeBy Config.ckStep cmd isWrite payload s

end Sys2Proof.Machine
end

