-- ==== Sys2Proof/Machine/Frames.lean ====
section
/-! DEFINITION. The two frame kinds `FRAME_READ` and `FRAME_WRITE` (spec/30_encoding.md R90, R91, R108). A frame is data
for the parser: executing one is the pseudo-operation `feedall` of R107 over its bytes, marker first (log 8). -/

namespace Sys2Proof.Machine

open Sys2Proof

/-- The positions seen so far, with position `i` added if the byte just taken returned `FrameReady`. -/
def notePosition (i : Nat) (seen : List Nat) (s : State) : List Nat :=
  match s.feedOut with
  | .frameReady => seen ++ [i]
  | .incomplete => seen

/-- `feedall` from position `i` on (R107): the bytes are fed in order, and the result is the list of the positions at
which `FrameReady` was returned. -/
def feedAll (bytes : List Byte) (i : Nat) (seen : List Nat) (s : State) (ck : Config.CkStep := Config.ckStep) : Out :=
  match bytes with
  | [] => .next (deliver s (.readyAt seen))
  | b :: rest => afterFeed (feedByte b s ck) fun s1 => feedAll rest (i + 1) (notePosition i seen s1) s1 ck

/-- A frame row with any `CK_STEP` (R108, R127). -/
def execFrameBy (ck : Config.CkStep) (isWrite : Bool) (cmd : Byte) (reserved : BitVec 5) (field : BitVec 10)
    (tail : List Byte) (s : State) : Out :=
  whenIdle s (feedAll (frameBytes isWrite cmd reserved field tail) 0 [] s ck)

/-- `FRAME_READ` (R108): the parser takes the bytes of a frame whose write bit is 0. -/
def execFrameRead (cmd : Byte) (reserved : BitVec 5) (field : BitVec 10) (tail : List Byte) (s : State) : Out :=
  execFrameBy Config.ckStep false cmd reserved field tail s

/-- `FRAME_WRITE` (R108): the same with write bit 1. -/
def execFrameWrite (cmd : Byte) (reserved : BitVec 5) (field : BitVec 10) (tail : List Byte) (s : State) : Out :=
  execFrameBy Config.ckStep true cmd reserved field tail s

end Sys2Proof.Machine
end

