-- ==== Sys2Proof/Machine/Dispatch.lean ====
section
/-! DEFINITION. One arm per instruction. -/

namespace Sys2Proof.Machine

open Sys2Proof

def exec (i : Instr) (s : State) : Host.Outcome State Fault Refusal :=
  match i with
  | .frameRead cmd reserved field tail => Sys2Proof.Machine.execFrameRead cmd reserved field tail s
  | .frameWrite cmd reserved field tail => Sys2Proof.Machine.execFrameWrite cmd reserved field tail s
  | .rxNoise b => Sys2Proof.Machine.execRxNoise b s
  | .rxMarker => Sys2Proof.Machine.execRxMarker s
  | .rxFlagsLo b => Sys2Proof.Machine.execRxFlagsLo b s
  | .rxFlagsHiOk b => Sys2Proof.Machine.execRxFlagsHiOk b s
  | .rxFlagsHiBad b => Sys2Proof.Machine.execRxFlagsHiBad b s
  | .rxBody b => Sys2Proof.Machine.execRxBody b s
  | .rxLastOk b => Sys2Proof.Machine.execRxLastOk b s
  | .rxLastBad b => Sys2Proof.Machine.execRxLastBad b s
  | .parserReset => Sys2Proof.Machine.execParserReset s
  | .feed b => Sys2Proof.Machine.execFeed b s
  | .frameGet => Sys2Proof.Machine.execFrameGet s
  | .checksum bytes => Sys2Proof.Machine.execChecksum bytes s
  | .encode cmd isWrite payload => Sys2Proof.Machine.execEncode cmd isWrite payload s
  | .reqLoad cmd bytes => Sys2Proof.Machine.execReqLoad cmd bytes s
  | .waitFrame expect timeout => Sys2Proof.Machine.execWaitFrame expect timeout s
  | .transact timeout => Sys2Proof.Machine.execTransact timeout s

end Sys2Proof.Machine
end

