-- ==== Sys2Proof/Machine/Fetch.lean ====
section
/-! DEFINITION. Where the next instruction comes from (log 7): while the block is idle, the host's next call; while a
wait loop runs, the byte the transport delivers, whose decode key the parser state completes (spec/30_encoding.md R104).
Step only calls what stands here. -/

namespace Sys2Proof.Machine

open Sys2Proof

/-- The idle block takes the host's next call and runs the operation it decodes to; with no call it waits
(spec/70_reset_and_hazards.md R240; spec/00_scope.md R9; log 6). -/
def idleStep (s : State) (run : Instr → State → Out := exec) : Out :=
  match s.host with
  | [] => .next s
  | c :: rest =>
    match decodeCall c with
    | .ok i => run i (s.setHost rest)
    | .error e => .refused (.undecodable e)

/-- The instruction a received byte is for the parser: its decode key, decoded in the parser's context (R104). -/
def rxInstr (p : ParserRegs) (b : Byte) (ck : Config.CkStep := Config.ckStep) : Except DecodeError Instr :=
  decodeKey (rxContext p ck) (rxKey p.ps b)

/-- A parser about to take a byte in state `ps`, holding as much of the header `AA 40 00` of the shortest frame as that
state has received: the parser state a decode key of the opcode table names (R104; log 7). -/
def parserAt (ps : ParserState) (p : ParserRegs) : ParserRegs :=
  match ps with
  | .hunting => { p with ps := .hunting, rem := 0 }
  | .gotMarker => { (p.clear.dropFrame.append Config.marker) with ps := .gotMarker, rem := 0 }
  | .gotFlagsLow => { ((p.clear.dropFrame.append Config.marker).append 0x40) with ps := .gotFlagsLow, rem := 0 }
  | .accumulating => { (((p.clear.dropFrame.append Config.marker).append 0x40).append 0x00) with ps := .accumulating, rem := 3 }

/-- Places a call as the host's next one, the block being idle. -/
def placeCall (c : HostCall) (s : State) : State := (s.setCs .idle).setHost (c :: s.host)

/-- Places a byte as the transport's next answer, in a wait of the host, with the parser in state `ps`. -/
def placeByte (ps : ParserState) (b : Byte) (s : State) : State :=
  ((s.setParser (parserAt ps s.parser)).setCs (.wait .host)).setEnv { s.env with polls := some b :: s.env.polls }

/-- Places an opcode-table word where the next step fetches it. -/
def placeWords (w : Words) (s : State) : State :=
  match w with
  | .call c => placeCall c s
  | .key k =>
    match parserStateOf (keyCode k) with
    | some ps => placeByte ps (keyByte k) s
    | none => placeCall (.other []) s

end Sys2Proof.Machine
end

