-- ==== Sys2Proof/Machine/Step.lean ====
section
/-! DEFINITION. One step of the block: the phase `cs` says what it does (spec/10_state.md R36; spec/44_correlator.md
R194; spec/43_streaming_reader.md R182). -/

namespace Sys2Proof.Machine

open Sys2Proof

/-- One step. -/
def step (s : State) : Host.Outcome State Fault Refusal :=
  match s.cs with
  | .idle => idleStep s
  | .send timeout => sendStep timeout s
  | .wait who => waitStep who s

/-- The state with an opcode-table word stored where the next step fetches (log 7). -/
def State.withFetchWord (s : State) (nbits w : Nat) : State := placeWords (tableWords nbits w) s

end Sys2Proof.Machine
end

