-- ==== Sys2Proof/Machine/Pseudo.lean ====
section
/-! DEFINITION. The pseudo-operations of spec/30_encoding.md R107, "each an abbreviation and nothing more", as the lists
of host calls they stand for. -/

namespace Sys2Proof.Machine

open Sys2Proof

/-- A call with the ports an operation does not read at zero. -/
def callOf (op : BitVec 3) (byteArg : Byte) (seqArg : List Byte) (timeArg : Time) : HostCall :=
  .op { op := op, byteArg := byteArg, flagArg := false, seqArg := seqArg, timeArg := timeArg }

/-- `feedall s` as single `FEED` calls. -/
def pseudoFeedAll (bytes : List Byte) : List HostCall := bytes.map fun b => callOf 1 b [] 0

/-- `decode s` = `reset` then `feedall s`. -/
def pseudoDecode (bytes : List Byte) : List HostCall := callOf 0 0 [] 0 :: pseudoFeedAll bytes

/-- `transact cmd, enc, t` = `reqload cmd, enc; transact t` (spec/44_correlator.md R191). -/
def pseudoTransact (cmd : Byte) (enc : List Byte) (t : Time) : List HostCall :=
  [callOf 5 cmd enc 0, callOf 7 0 [] t]

/-- `request cmd, R|W, [payload], t` = `reqload cmd, frame(cmd, R|W, [payload]); transact t`. -/
def pseudoRequest (cmd : Byte) (isWrite : Bool) (payload : List Byte) (t : Time)
    (ck : Config.CkStep := Config.ckStep) : List HostCall :=
  pseudoTransact cmd (encodeFrame cmd isWrite payload ck) t

end Sys2Proof.Machine
end

