-- ==== Sys2Proof/Machine/Supplied.lean ====
section
/-! DEFINITION. The machine with a `CK_STEP` supplied (spec/40_checksum.md R127; spec/92_eei_decisions.md D3): every
meaning that runs the checksum engine runs the supplied function, and nothing else differs. At `Config.ckStep` it is
the machine of Dispatch.lean and Step.lean (Laws/Supplied.lean). -/

namespace Sys2Proof.Machine

open Sys2Proof

/-- One instruction with any `CK_STEP`. -/
def execBy (ck : Config.CkStep) (i : Instr) (s : State) : Out :=
  match i with
  | .frameRead cmd reserved field tail => execFrameBy ck false cmd reserved field tail s
  | .frameWrite cmd reserved field tail => execFrameBy ck true cmd reserved field tail s
  | .rxNoise b => execRxNoiseBy ck b s
  | .rxMarker => execRxMarkerBy ck s
  | .rxFlagsLo b => execRxFlagsLoBy ck b s
  | .rxFlagsHiOk b => execRxFlagsHiOkBy ck b s
  | .rxFlagsHiBad b => execRxFlagsHiBadBy ck b s
  | .rxBody b => execRxBodyBy ck b s
  | .rxLastOk b => execRxLastOkBy ck b s
  | .rxLastBad b => execRxLastBadBy ck b s
  | .parserReset => execParserReset s
  | .feed b => execFeedBy ck b s
  | .frameGet => execFrameGet s
  | .checksum bytes => execChecksumBy ck bytes s
  | .encode cmd isWrite payload => execEncodeBy ck cmd isWrite payload s
  | .reqLoad cmd bytes => execReqLoad cmd bytes s
  | .waitFrame expect timeout => execWaitFrame expect timeout s
  | .transact timeout => execTransact timeout s

/-- One step with any `CK_STEP`. -/
def stepBy (ck : Config.CkStep) (s : State) : Out :=
  match s.cs with
  | .idle => idleStep s (execBy ck)
  | .send timeout => sendStep timeout s
  | .wait who => waitStep who s ck

end Sys2Proof.Machine
end

