-- ==== Sys2Proof/Safety.lean ====
section
/-! DEFINITION. The invariants of spec/10_state.md R42, with what the model adds to them, and the words claims use: the
table row of a received byte, the bytes a parser holds, runs of `FEED`, one-bit differences. What rests on the checksum
takes the configuration function `CK_STEP` as its last argument, at its default where none is given (spec/40_checksum.md
R127). -/

namespace Sys2Proof.Machine

open Sys2Proof

/-- R42 (I1) to (I4): what each value of `ps` implies; in `HUNTING`, `GOT_MARKER` and `GOT_FLAGS_LOW` `rem` is 0
(R24). -/
abbrev ParserRegs.phaseInv (p : ParserRegs) : Prop :=
  (p.ps = .hunting → p.rem = 0) ∧
  (p.ps = .gotMarker → p.wrIdx = 1 ∧ p.readBuf 0 = some 0xAA ∧ p.frameOk = false ∧ p.rem = 0) ∧
  (p.ps = .gotFlagsLow → p.wrIdx = 2 ∧ p.readBuf 0 = some 0xAA ∧ p.frameOk = false ∧ p.rem = 0) ∧
  (p.ps = .accumulating →
    (3 ≤ p.wrIdx ∧ p.wrIdx ≤ 1021) ∧ (1 ≤ p.rem ∧ p.rem ≤ 1019) ∧
      (∃ n ∈ p.count, (3 ≤ n ∧ n ≤ 1019) ∧ p.wrIdx + p.rem = 3 + n) ∧
      p.readBuf 0 = some 0xAA ∧ p.frameOk = false)

/-- R42 (I5): what `frame_ok = 1` implies. -/
abbrev ParserRegs.latchInv (p : ParserRegs) (ck : Config.CkStep := Config.ckStep) : Prop :=
  p.frameOk = true →
    p.ps = .hunting ∧ (6 ≤ p.wrIdx ∧ p.wrIdx ≤ 1022) ∧ (∃ n ∈ p.count, p.wrIdx = 3 + n) ∧
      p.readBuf 0 = some 0xAA ∧ p.readBuf 3 = some p.cmdLatched ∧ (∃ v ∈ p.ckStored, p.ckCovered ck = some v)

/-- The buffer's own form: canonical, inside its 1022 bytes, every byte below `wr_idx` written, `wr_idx` in range (R42
(I6)). -/
abbrev ParserRegs.bufInv (p : ParserRegs) : Prop :=
  p.buf.wf ∧ p.buf.within 1022 ∧ p.wrIdx ≤ 1022 ∧ (p.readRange 0 p.wrIdx).isSome

/-- The parser invariants. -/
abbrev ParserRegs.Inv (p : ParserRegs) (ck : Config.CkStep := Config.ckStep) : Prop :=
  p.bufInv ∧ p.phaseInv ∧ p.latchInv ck

/-- The request registers: canonical, inside their 1022 bytes, and a loaded request has every byte (R33). -/
abbrev RequestRegs.Inv (r : RequestRegs) : Prop :=
  r.bytes.wf ∧ r.bytes.within 1022 ∧ (r.valid = true → r.len ≤ 1022 ∧ r.sequence.isSome)

/-- What the phase implies: an attempt is due or running only with a request loaded; a running wait's mode is that of
its timeout (R35); an attempt waits for the request's command with the transaction's timeout, and has been counted
(R193, R194). -/
def State.phaseInv (s : State) : Bool :=
  match s.cs with
  | .idle => true
  | .send _ => s.req.valid
  | .wait .host => s.reader.wmode = decide (0 < s.reader.toVal)
  | .wait (.transact t) =>
    s.reader.wmode = decide (0 < s.reader.toVal) && s.req.valid && 1 ≤ s.attempt &&
      s.reader.expect = s.req.cmd && s.reader.toVal = t

/-- The invariant: R42 (I1) to (I8), with the forms of the two buffers and of the phase. `ps` is never 3, 5, 6 or 7
(I7) by its type. -/
abbrev State.Inv (s : State) (ck : Config.CkStep := Config.ckStep) : Prop :=
  s.parser.Inv ck ∧ s.req.Inv ∧ s.attempt ≤ 4 ∧ s.phaseInv = true

/-- The conditions of R104's table, row by row, over the registers as they are before the byte is taken. -/
def RowHolds (p : ParserRegs) (b : Byte) (cl : RxClass) (ck : Config.CkStep := Config.ckStep) : Prop :=
  match cl with
  | .noise => p.ps = .hunting ∧ b ≠ 0xAA
  | .marker => p.ps = .hunting ∧ b = 0xAA
  | .flagsLo => p.ps = .gotMarker
  | .flagsHiOk => p.ps = .gotFlagsLow ∧
      ∃ lo, p.readBuf 1 = some lo ∧ 3 ≤ (le16 lo b).toNat / 64 + 2 ∧ (le16 lo b).toNat / 64 + 2 ≤ 1019
  | .flagsHiBad => p.ps = .gotFlagsLow ∧
      ∃ lo, p.readBuf 1 = some lo ∧ ¬(3 ≤ (le16 lo b).toNat / 64 + 2 ∧ (le16 lo b).toNat / 64 + 2 ≤ 1019)
  | .body => p.ps = .accumulating ∧ 1 < p.rem
  | .lastOk => p.ps = .accumulating ∧ p.rem = 1 ∧
      ∃ lo l, p.readBuf (p.wrIdx - 1) = some lo ∧ p.readRange 0 (p.wrIdx - 1) = some l ∧ le16 lo b = checksum l ck
  | .lastBad => p.ps = .accumulating ∧ p.rem = 1 ∧
      ∃ lo l, p.readBuf (p.wrIdx - 1) = some lo ∧ p.readRange 0 (p.wrIdx - 1) = some l ∧ le16 lo b ≠ checksum l ck

/-- The bytes the parser holds: `buf[0 .. wr_idx]`. -/
def ParserRegs.held (p : ParserRegs) : Option (List Byte) := p.readRange 0 p.wrIdx

/-- A run of `FEED` operations, one per byte, with what each returned. (At the default `CK_STEP`, `execBy` is `exec`.) -/
def feedRun (bytes : List Byte) (s : State) (ck : Config.CkStep := Config.ckStep) : Option (List FeedResult × State) :=
  match bytes with
  | [] => some ([], s)
  | b :: rest =>
    match execBy ck (.feed b) s with
    | .next t =>
      match feedRun rest t ck with
      | some (rs, u) => some (t.feedOut :: rs, u)
      | none => none
    | .fault _ => none
    | .refused _ => none

/-- The results of feeding a whole frame of `n + 1` bytes: `Incomplete` for all but the last, then `FrameReady`. -/
def readyAtLast (n : Nat) : List FeedResult := List.replicate n .incomplete ++ [.frameReady]

/-- The same byte sequence with one bit of one byte flipped. -/
def flipBit (l : List Byte) (i : Nat) (k : Fin 8) : List Byte :=
  l.modify i fun b => b ^^^ BitVec.twoPow 8 k.val

/-- `n` steps of the machine, stopping at the first fault or refusal. -/
def steps : Nat → State → Out
  | 0, s => .next s
  | n + 1, s =>
    match step s with
    | .next t => steps n t
    | .fault r => .fault r
    | .refused r => .refused r

end Sys2Proof.Machine
end

