-- ==== Sys2Proof/Certificates/Slice0/Obligations.lean ====
section
/-! DEFINITION. The statements for the provers, from the numbered rules of spec/. A statement says "the model's choice"
where it rests on a decision the spec marks as its own (`D<n>`) or on a log entry. -/

open Sys2Proof Sys2Proof.Machine

/-! ### Reset and the invariants -/

/-- spec/10_state.md R43, both columns, and spec/70_reset_and_hazards.md R240 (decision D10, D9; the values the
unreadable registers are given are log 1 and are not stated here): the registers at power-on, the reads that are then
refused, the idle block waiting for an operation; and what `PARSER_RESET` changes. -/
def Obligations.PowerOnAndParserResetValues : Prop :=
  (State.reset.parser.ps = .hunting ∧ State.reset.parser.rem = 0 ∧ State.reset.parser.wrIdx = 0 ∧
    State.reset.parser.frameOk = false ∧ State.reset.ckAcc = 0x0000 ∧ State.reset.req.valid = false ∧
    State.reset.attempt = 0 ∧ State.reset.reader.expect = 0 ∧ State.reset.reader.toVal = 0 ∧
    State.reset.reader.tDeadline = 0 ∧ State.reset.reader.wmode = false ∧ State.reset.cs = .idle ∧
    State.reset.status = .ok) ∧
  ((∀ i, State.reset.parser.readBuf i = none) ∧ exec .frameGet State.reset = .refused .noFrame ∧
    State.reset.req.sequence = none ∧ hostRead .reqCmd State.reset = .error .requestUnreadable ∧
    hostRead .reqLen State.reset = .error .requestUnreadable) ∧
  step State.reset = .next State.reset ∧
  ∀ s : State, s.cs = .idle →
    exec .parserReset s = .next { s with parser := { s.parser with ps := .hunting, rem := 0 }, result := some .done }

/-- The invariant holds after power-on reset (R42 "These hold after reset"). -/
def Obligations.InvariantHoldsAtReset : Prop := State.reset.Inv

/-- R42, for one operation or received-byte class: whatever `exec` answers next meets the invariant again. -/
def Obligations.ExecKeepsInvariant : Prop :=
  ∀ (i : Instr) (s t : State), s.Inv → exec i s = .next t → t.Inv

/-- R42, for the whole machine: every step keeps the invariant, whatever the host calls and the environment answers. -/
def Obligations.StepKeepsInvariant : Prop :=
  ∀ s t : State, s.Inv → step s = .next t → t.Inv

/-- The byte spaces (spec/20_memory.md R60, R63): a read gives what was written last at its address and every other
address reads as before; a write keeps the canonical form; a sequence written is read back, and every address outside it
reads as before. -/
def Obligations.MemoryReadsWhatWasWritten : Prop :=
  (∀ (m : Memory) (k j : Nat) (v : Byte), (m.write k v).read j = if j = k then some v else m.read j) ∧
  (∀ (m : Memory) (k : Nat) (v : Byte), m.wf → (m.write k v).wf) ∧
  (∀ (m : Memory) (k : Nat) (l : List Byte), (m.writeSeq k l).readSeq k l.length = some l) ∧
  ∀ (m : Memory) (k j : Nat) (l : List Byte), j < k ∨ k + l.length ≤ j → (m.writeSeq k l).read j = m.read j

/-! ### Encodings -/

/-- Decoding the words of a well-formed instruction gives it back, with every operand at every value; for a
received-byte class, in every context R104 gives it (log 7). -/
def Obligations.DecodeInvertsEncode : Prop :=
  ∀ (i : Instr) (c : RxContext), i.wellFormed = true → i.fits c = true → decode c (encode i) = .ok i

/-- No two words mean the same frame: what frame bytes decode to encodes to those very bytes; and what a decode key
decodes to encodes to that key. -/
def Obligations.EncodeInvertsDecode : Prop :=
  (∀ (c : RxContext) (bytes : List Byte) (i : Instr),
    decode c (.call (.frame bytes)) = .ok i → encode i = .call (.frame bytes) ∧ i.wellFormed = true) ∧
  ∀ (c : RxContext) (k : BitVec 11) (i : Instr),
    decode c (.key k) = .ok i → encode i = .key k ∧ i.wellFormed = true ∧ i.fits c = true

/-- Words written out from R91, R104 and R105 decode to the instructions they stand for: two frame headers with their
frames, a key of each parser state, the eight select codes. -/
def Obligations.TableWordsDecode : Prop :=
  decodeTableWord 32 0x2C0080AA = some (.frameRead 0x2C 0 2 [0, 0, 0]) ∧
  decodeTableWord 32 0x55007FAA = some (.frameWrite 0x55 0x1F 1 [0, 0]) ∧
  decodeTableWord 16 0x013 = some (.rxNoise 0x13) ∧ decodeTableWord 16 0x0AA = some .rxMarker ∧
  decodeTableWord 16 0x1AA = some (.rxFlagsLo 0xAA) ∧ decodeTableWord 16 0x201 = some (.rxFlagsHiOk 0x01) ∧
  decodeTableWord 16 0x2FF = some (.rxFlagsHiBad 0xFF) ∧ decodeTableWord 16 0x42C = some (.rxBody 0x2C) ∧
  decodeTableWord 8 0 = some .parserReset ∧ decodeTableWord 8 1 = some (.feed 0) ∧
  decodeTableWord 8 2 = some .frameGet ∧ decodeTableWord 8 3 = some (.checksum []) ∧
  decodeTableWord 8 4 = some (.encode 0 false []) ∧ decodeTableWord 8 5 = some (.reqLoad 0 []) ∧
  decodeTableWord 8 6 = some (.waitFrame 0 0) ∧ decodeTableWord 8 7 = some (.transact 0) ∧
  decodeTableWord 16 0x3AA = none ∧ decodeTableWord 32 0x2C0080AB = none

/-- The classes of R104 are exhaustive and mutually exclusive, and the decoder gives a byte the one whose table row
holds (the keys are the spec's own). -/
def Obligations.ByteClassesExhaustiveAndExclusive : Prop :=
  ∀ (p : ParserRegs) (b : Byte), p.Inv →
    ∃ cl, (∀ cl', RowHolds p b cl' ↔ cl' = cl) ∧ decode (rxContext p) (.key (rxKey p.ps b)) = .ok (cl.instr b)

/-! ### The checksum engine -/

/-- R120: `CHECKSUM` answers the fold of `CK_STEP` from 0x0000 and leaves it in the accumulator, and nothing else
changes; its corner cases and its worked example. The start value and the recurrence are the spec's decisions D1 to D3
(log 16). -/
def Obligations.ChecksumOperation : Prop :=
  (∀ (l : List Byte) (s : State), s.cs = .idle →
    exec (.checksum l) s =
      .next { s with ckAcc := l.foldl ckStep 0x0000, result := some (.checksum (l.foldl ckStep 0x0000)) }) ∧
  checksum [] = 0x0000 ∧ ckStep 0x0000 0x00 = 0x0000 ∧ checksum [0x01, 0x02] ≠ checksum [0x02, 0x01] ∧
  (∀ (n : Nat) (l : List Byte), checksum (List.replicate n 0x00 ++ l) = checksum l) ∧
  checksum [0xAA, 0x40, 0x00, 0x2C] = 0xF18D

/-- The closed form of R122 (the spec marks it as derived from R121). -/
def Obligations.ChecksumStepClosedForm : Prop :=
  ∀ (acc : U16) (b : Byte),
    let c : Byte := hi8 acc ^^^ b
    ckStep acc b =
      ((lo8 acc).setWidth 16 <<< 8) ^^^ c.setWidth 16 ^^^ (c.setWidth 16 <<< 5) ^^^ (c.setWidth 16 <<< 12)

/-- R125 (the spec marks it as derived): `CK_STEP` is linear over GF(2) in the pair, and for every fixed byte a bijection
on the accumulator values. -/
def Obligations.ChecksumStepLinearAndBijective : Prop :=
  (∀ (a a' : U16) (b b' : Byte), ckStep (a ^^^ a') (b ^^^ b') = ckStep a b ^^^ ckStep a' b') ∧
  ∀ b : Byte, Function.Bijective fun acc => ckStep acc b

/-- R125 consequence (a) (derived): flipping one bit of one byte changes the checksum. -/
def Obligations.OneFlippedBitChangesChecksum : Prop :=
  ∀ (l : List Byte) (i : Nat) (k : Fin 8), i < l.length → checksum (flipBit l i k) ≠ checksum l

/-! ### The encoder -/

/-- R141 and the assembly of R142: `flags = (1 + L) << 6 | w`, emitted low byte first between marker and command; the
value fits 16 bits and its bits 5:1 are 0. `ENCODE` answers with that frame and changes no state (R140, R144): that
`ck_acc` stays as well, although the encoder runs the engine, is the model's reading, log 10. -/
def Obligations.EncodeBuildsTheFrame : Prop :=
  ∀ (cmd : Byte) (w : Bool) (payload : List Byte) (s : State), s.cs = .idle → payload.length ≤ 1016 →
    let flags := (1 + payload.length) * 64 + w.toNat
    let covered : List Byte :=
      [0xAA, BitVec.ofNat 8 (flags % 256), BitVec.ofNat 8 (flags / 256), cmd] ++ payload
    flags < 65536 ∧ flags / 2 % 32 = 0 ∧
      exec (.encode cmd w payload) s =
        .next { s with result := some (.bytes (covered ++ [lo8 (checksum covered), hi8 (checksum covered)])) }

/-- `ENCODE` refuses a payload over 1016 bytes (the spec's decision D5, R143). -/
def Obligations.EncodeRefusesLongPayload : Prop :=
  ∀ (cmd : Byte) (w : Bool) (payload : List Byte) (s : State), s.cs = .idle → 1016 < payload.length →
    exec (.encode cmd w payload) s = .refused .payloadTooLong

/-! ### The received-byte classes -/

/-- R151. -/
def Obligations.NoiseByteIsDiscarded : Prop :=
  ∀ (b : Byte) (s : State), s.parser.ps = .hunting → b ≠ 0xAA →
    exec (.rxNoise b) s = .next { s with feedOut := .incomplete }

/-- R152, with its last sentence but one: no other class compares the byte with the marker, so a byte is a marker only
in `HUNTING`. -/
def Obligations.MarkerStartsAFrame : Prop :=
  (∀ s : State, s.parser.ps = .hunting →
    exec .rxMarker s =
      .next { s with
        parser := { s.parser with
          ps := .gotMarker, buf := s.parser.buf.write 0 0xAA, wrIdx := 1, frameOk := false }
        feedOut := .incomplete }) ∧
  ∀ (p : ParserRegs) (b : Byte), rxClass p b = .ok .marker ↔ p.ps = .hunting ∧ b = 0xAA

/-- R153, for every byte, 0xAA included. -/
def Obligations.FlagsLowByteIsAppended : Prop :=
  ∀ (b : Byte) (s : State), s.Inv → s.parser.ps = .gotMarker →
    exec (.rxFlagsLo b) s =
      .next { s with
        parser := { s.parser with ps := .gotFlagsLow, buf := s.parser.buf.write 1 b, wrIdx := 2 }
        feedOut := .incomplete }

/-- R154: `count = (flags_raw >> 6) + 2`, in 3 to 1019, becomes `rem`. -/
def Obligations.AcceptedLengthStartsAccumulating : Prop :=
  ∀ (lo b : Byte) (s : State) (count : Nat), s.Inv → s.parser.ps = .gotFlagsLow → s.parser.readBuf 1 = some lo →
    count = (lo.toNat + 256 * b.toNat) / 64 + 2 → 3 ≤ count → count ≤ 1019 →
    exec (.rxFlagsHiOk b) s =
      .next { s with
        parser := { s.parser with
          ps := .accumulating, buf := s.parser.buf.write 2 b, wrIdx := 3, rem := count }
        feedOut := .incomplete }

/-- R155: a count out of range (2, or 1020 to 1025) sends the parser back to hunting in this same step, with three bytes
left in the buffer and no frame. -/
def Obligations.RejectedLengthReturnsToHunting : Prop :=
  ∀ (lo b : Byte) (s : State) (count : Nat), s.Inv → s.parser.ps = .gotFlagsLow → s.parser.readBuf 1 = some lo →
    count = (lo.toNat + 256 * b.toNat) / 64 + 2 → ¬(3 ≤ count ∧ count ≤ 1019) →
    (count = 2 ∨ 1020 ≤ count ∧ count ≤ 1025) ∧ s.parser.frameOk = false ∧
    exec (.rxFlagsHiBad b) s =
      .next { s with
        parser := { s.parser with
          ps := .hunting, buf := s.parser.buf.write 2 b, wrIdx := 3, rem := 0 }
        feedOut := .incomplete }

/-- R156, for every byte, 0xAA included; the first such byte lands at `buf[3]`. -/
def Obligations.BodyByteIsAccumulated : Prop :=
  ∀ (b : Byte) (s : State), s.Inv → s.parser.ps = .accumulating → 1 < s.parser.rem →
    exec (.rxBody b) s =
      .next { s with
        parser := { s.parser with
          buf := s.parser.buf.write s.parser.wrIdx b, wrIdx := s.parser.wrIdx + 1, rem := s.parser.rem - 1 }
        feedOut := .incomplete }

/-- R157: the buffer holds the covered bytes and the first checksum byte `ckLo`; when the last byte completes the
checksum of the covered bytes, `wr_idx` becomes `3 + count`, their fourth byte is latched and the frame is ready. (What
`ck_acc` holds then is a statement of its own.) -/
def Obligations.GoodLastByteLatchesTheFrame : Prop :=
  ∀ (b ckLo : Byte) (covered : List Byte) (s : State), s.Inv → s.parser.ps = .accumulating → s.parser.rem = 1 →
    s.parser.held = some (covered ++ [ckLo]) → le16 ckLo b = checksum covered →
    ∃ cmd count acc, covered[3]? = some cmd ∧ s.parser.count = some count ∧ s.parser.wrIdx + 1 = 3 + count ∧
      exec (.rxLastOk b) s =
        .next { s with
          parser := { s.parser with
            ps := .hunting, buf := s.parser.buf.write s.parser.wrIdx b, wrIdx := s.parser.wrIdx + 1, rem := 0,
            cmdLatched := cmd, frameOk := true }
          ckAcc := acc
          feedOut := .frameReady }

/-- R158: when the last byte does not complete the checksum, the parser hunts again, silently; `cmd_latched` and
`frame_ok = 0` stay. (`ck_acc`: as for R157.) -/
def Obligations.BadLastByteIsDiscardedSilently : Prop :=
  ∀ (b ckLo : Byte) (covered : List Byte) (s : State), s.Inv → s.parser.ps = .accumulating → s.parser.rem = 1 →
    s.parser.held = some (covered ++ [ckLo]) → le16 ckLo b ≠ checksum covered →
    s.parser.frameOk = false ∧
    ∃ acc, exec (.rxLastBad b) s =
      .next { s with
        parser := { s.parser with
          ps := .hunting, buf := s.parser.buf.write s.parser.wrIdx b, wrIdx := s.parser.wrIdx + 1, rem := 0 }
        ckAcc := acc
        feedOut := .incomplete }

/-- The model's choice (log 10, from R27 and R128): the last byte of a frame leaves the checksum of the covered bytes in
`ck_acc`, whether it matches or not. -/
def Obligations.LastByteLeavesTheChecksumInTheAccumulator : Prop :=
  ∀ (b ckLo : Byte) (covered : List Byte) (cl : RxClass) (s t : State), s.Inv → s.parser.ps = .accumulating →
    s.parser.rem = 1 → s.parser.held = some (covered ++ [ckLo]) → exec (cl.instr b) s = .next t →
    t.ckAcc = checksum covered

/-- A received-byte class is refused where R104 gives the byte another class (the model's choice, log 9). -/
def Obligations.OtherClassIsRefused : Prop :=
  ∀ (cl cl' : RxClass) (b : Byte) (s : State), (cl' = .marker → b = 0xAA) → RowHolds s.parser b cl → cl' ≠ cl →
    exec (cl'.instr b) s = .refused .otherClass

/-! ### FEED, PARSER_RESET and FRAME_GET -/

/-- R150: `FEED` is total, runs exactly one of R151 to R158, and returns `FrameReady` only from R157; and its worked
example. -/
def Obligations.FeedRunsExactlyOneClass : Prop :=
  (∀ (b : Byte) (s : State), s.Inv → s.cs = .idle →
    ∃ cl t, (∀ cl', RowHolds s.parser b cl' ↔ cl' = cl) ∧ exec (cl.instr b) s = .next t ∧
      exec (.feed b) s = .next { t with result := some (.ready t.feedOut) } ∧
      (t.feedOut = .frameReady ↔ cl = .lastOk)) ∧
  ∀ s : State, s.Inv → s.cs = .idle → s.parser.ps = .hunting →
    ∃ u, feedRun [0xAA, 0x40, 0x00, 0x2C, 0x8D, 0xF1] s = some (readyAtLast 5, u)

/-- `PARSER_RESET` (R160; decision D9): `ps <- HUNTING; rem <- 0`, nothing else; in `HUNTING` the parser registers do not
change at all. -/
def Obligations.ParserResetAbandonsPartialFrame : Prop :=
  (∀ s : State, s.cs = .idle →
    exec .parserReset s = .next { s with parser := { s.parser with ps := .hunting, rem := 0 }, result := some .done }) ∧
  ∀ s : State, s.Inv → s.cs = .idle → s.parser.ps = .hunting →
    exec .parserReset s = .next { s with result := some .done }

/-- `FRAME_GET` (R162; decisions D24, D27): with a frame latched, the result is what the buffer holds: command,
write bit, flags and the `field - 1` bytes between the command and the two checksum bytes; no state changes. -/
def Obligations.FrameGetReturnsTheLatchedFrame : Prop :=
  ∀ s : State, s.Inv → s.cs = .idle → s.parser.frameOk = true →
    ∃ m lo hi payload c0 c1,
      s.parser.held = some ([m, lo, hi, s.parser.cmdLatched] ++ payload ++ [c0, c1]) ∧
      payload.length + 1 = (lo.toNat + 256 * hi.toNat) / 64 ∧
      le16 c0 c1 = checksum ([m, lo, hi, s.parser.cmdLatched] ++ payload) ∧
      exec .frameGet s =
        .next { s with result := some (.frame
          { cmd := s.parser.cmdLatched, write := lo.getLsbD 0, flagsRaw := le16 lo hi, payload := payload }) }

/-- The window of `FRAME_GET` (R163; decision D8): outside it the operation is refused, and only a marker taken in
`HUNTING` closes it. -/
def Obligations.OnlyAMarkerClosesTheFrameWindow : Prop :=
  (∀ s : State, s.cs = .idle → s.parser.frameOk = false → exec .frameGet s = .refused .noFrame) ∧
  ∀ (i : Instr) (s t : State), exec i s = .next t → s.parser.frameOk = true → t.parser.frameOk = false →
    i = .rxMarker ∨ i = .feed 0xAA ∨ (∃ c r f l, i = .frameRead c r f l) ∨ ∃ c r f l, i = .frameWrite c r f l

/-! ### Frames -/

/-- R142 (derived there): what `ENCODE` builds, fed to a parser in `HUNTING`, gives `Incomplete` for the first `5 + L`
bytes and `FrameReady` for the last, and the frame read back has the command, the write bit and the payload exactly. -/
def Obligations.EncodedFrameRoundTrips : Prop :=
  ∀ (cmd : Byte) (w : Bool) (payload : List Byte) (s : State), s.Inv → s.cs = .idle → s.parser.ps = .hunting →
    payload.length ≤ 1016 →
    ∃ u flags, feedRun (encodeFrame cmd w payload) s = some (readyAtLast (5 + payload.length), u) ∧
      u.parser.frameOk = true ∧ u.parser.cmdLatched = cmd ∧
      exec .frameGet u =
        .next { u with result := some (.frame { cmd := cmd, write := w, flagsRaw := flags, payload := payload }) }

/-- R166 (derived there): garbage without a 0xAA before an encoded frame costs nothing: exactly one `FrameReady`, on the
frame's last byte. -/
def Obligations.ResynchronisesAfterGarbage : Prop :=
  ∀ (garbage : List Byte) (cmd : Byte) (w : Bool) (payload : List Byte) (s : State), s.Inv → s.cs = .idle →
    s.parser.ps = .hunting → (∀ b ∈ garbage, b ≠ 0xAA) → payload.length ≤ 1016 →
    ∃ u, feedRun (garbage ++ encodeFrame cmd w payload) s =
        some (readyAtLast (garbage.length + (5 + payload.length)), u) ∧
      u.parser.cmdLatched = cmd ∧ u.parser.payload = some payload

/-- R167 (b) (derived there): one bit flipped in flags bits 5:0, the command, the payload or the checksum of an encoded
frame: no `FrameReady` for it, the parser hunts exactly at the next byte, and a second encoded frame gives exactly one. -/
def Obligations.FlippedFrameIsSilentlyDropped : Prop :=
  ∀ (cmd cmd' : Byte) (w w' : Bool) (payload payload' : List Byte) (i : Nat) (k : Fin 8) (s : State), s.Inv →
    s.cs = .idle → s.parser.ps = .hunting → payload.length ≤ 1016 → payload'.length ≤ 1016 →
    (i = 1 ∧ k.val < 6 ∨ 3 ≤ i ∧ i < 6 + payload.length) →
    ∃ u, feedRun (flipBit (encodeFrame cmd w payload) i k) s =
        some (List.replicate (6 + payload.length) .incomplete, u) ∧
      u.parser.ps = .hunting ∧ u.parser.frameOk = false ∧
      ∃ v, feedRun (encodeFrame cmd' w' payload') u = some (readyAtLast (5 + payload'.length), v) ∧
        v.parser.cmdLatched = cmd'

/-- `FRAME_READ` and `FRAME_WRITE` (R108, R91; executed as `feedall`, the model's choice, log 8): from `HUNTING`, a
frame with its length in range and its checksum right is ready at its last position, with the write bit of its kind,
its reserved bits kept, and its payload. -/
def Obligations.FrameKindsAreReceived : Prop :=
  ∀ (cmd : Byte) (r : BitVec 5) (field : BitVec 10) (payload : List Byte) (s : State), s.Inv → s.cs = .idle →
    s.parser.ps = .hunting → payload.length + 1 = field.toNat → field.toNat ≤ 1017 →
    let flags : Bool → Nat := fun w => field.toNat * 64 + r.toNat * 2 + w.toNat
    let covered : Bool → List Byte := fun w =>
      [0xAA, BitVec.ofNat 8 (flags w % 256), BitVec.ofNat 8 (flags w / 256), cmd] ++ payload
    let tail : Bool → List Byte := fun w => payload ++ [lo8 (checksum (covered w)), hi8 (checksum (covered w))]
    let received : Bool → State → Prop := fun w t =>
      t.result = some (.readyAt [5 + payload.length]) ∧ t.parser.ps = .hunting ∧
        latchedFrame t.parser =
          .ok { cmd := cmd, write := w, flagsRaw := BitVec.ofNat 16 (flags w), payload := payload }
    (∃ t, exec (.frameRead cmd r field (tail false)) s = .next t ∧ received false t) ∧
      ∃ t, exec (.frameWrite cmd r field (tail true)) s = .next t ∧ received true t

/-- Every frame row completes, whatever its bytes and whatever state the parser is in, and is the same as feeding its
bytes one `FEED` at a time (R107 `feedall`; log 8): same parser, same accumulator; everything but those, `feedOut` and the
result is left alone. -/
def Obligations.FrameRowsAreFeedAll : Prop :=
  ∀ (w : Bool) (cmd : Byte) (r : BitVec 5) (field : BitVec 10) (tail : List Byte) (s : State), s.Inv → s.cs = .idle →
    ∃ t rs u, exec (if w then .frameWrite cmd r field tail else .frameRead cmd r field tail) s = .next t ∧
      feedRun (frameBytes w cmd r field tail) s = some (rs, u) ∧
      t = { s with
        parser := u.parser, ckAcc := u.ckAcc, feedOut := u.feedOut
        result := some (.readyAt ((List.range rs.length).filter fun i => rs[i]? = some .frameReady)) }

/-! ### The streaming reader -/

/-- The entry of `WAIT_FRAME` (R180, R188; D14, D16): non-blocking, `Now()` is not called; blocking, the deadline is
`Now() + timeout`. Neither the parser nor the transport is touched. (The entry is a step of its own, log 19; the ports
are emptied, log 13.) -/
def Obligations.WaitFrameBegins : Prop :=
  ∀ (e : Byte) (timeout : Time) (s : State), s.cs = .idle →
    (timeout = 0 →
      exec (.waitFrame e timeout) s =
        .next { s with
          reader := { s.reader with expect := e, toVal := 0, wmode := false }, cs := .wait .host, result := none }) ∧
    (0 < timeout →
      exec (.waitFrame e timeout) s =
        .next { s with
          reader := { expect := e, toVal := timeout, wmode := true, tDeadline := s.env.now.1 + timeout }
          env := s.env.now.2, cs := .wait .host, result := none })

/-- R182 at an empty poll: non-blocking, the wait ends with `None`; blocking, it ends exactly if a fresh `Now()` has
reached the deadline, else it goes on with nothing changed but the environment. For the host the result is `None` with
`ST_NONE`; inside a `TRANSACT` the next attempt is due (R194; the status in between is log 14). -/
def Obligations.EmptyPollEndsOrContinuesTheWait : Prop :=
  ∀ (who : Waiter) (s : State), s.cs = .wait who → s.env.rxPoll.1 = none →
    let polled := s.env.rxPoll.2
    let ended : Env → State := fun e =>
      match who with
      | .host => { s with env := e, cs := .idle, status := .noFrame, result := some (.waited none) }
      | .transact t => { s with env := e, cs := .send t, status := .noFrame }
    (s.reader.wmode = false → step s = .next (ended polled)) ∧
    (s.reader.wmode = true → s.reader.tDeadline ≤ polled.now.1 → step s = .next (ended polled.now.2)) ∧
    (s.reader.wmode = true → polled.now.1 < s.reader.tDeadline → step s = .next { s with env := polled.now.2 })

/-- R182 and R183 at a delivered byte: the parser takes it by the row that holds; if that completes a valid frame whose
command is the expected one, the wait ends with that frame and `ST_OK` (a `TRANSACT`: with its payload), whatever its
write bit; else it goes on. -/
def Obligations.PolledByteIsParsedThenMatched : Prop :=
  ∀ (who : Waiter) (b : Byte) (s : State), s.Inv → s.cs = .wait who → s.env.rxPoll.1 = some b →
    ∃ cl u, RowHolds s.parser b cl ∧ exec (cl.instr b) { s with env := s.env.rxPoll.2 } = .next u ∧
      (¬(cl = .lastOk ∧ u.parser.cmdLatched = s.reader.expect) → step s = .next u) ∧
      (cl = .lastOk → u.parser.cmdLatched = s.reader.expect →
        ∃ f, latchedFrame u.parser = .ok f ∧ f.cmd = s.reader.expect ∧
          step s = .next { u with
            cs := .idle, status := .ok
            result := match who with
              | .host => some (.waited (some f))
              | .transact _ => some (.payload f.payload) })

/-- R261 (derived there): while a byte is delivered the deadline and the clock play no part: two waits that differ only
in them take the byte alike. -/
def Obligations.DeadlineIgnoredWhileBytesArrive : Prop :=
  ∀ (who : Waiter) (b : Byte) (s t : State) (ticks : List Time) (tickCount : Nat) (time deadline : Time),
    s.Inv → s.cs = .wait who → s.env.rxPoll.1 = some b → step s = .next t →
    step { s with
        env := { s.env with ticks := ticks, tickCount := tickCount, time := time }
        reader := { s.reader with tDeadline := deadline } } =
      .next { t with
        env := { t.env with ticks := ticks, tickCount := tickCount, time := time }
        reader := { t.reader with tDeadline := deadline } }

/-- A non-blocking wait ends at the latest at the first empty poll (R181, D15; R262 with F2 made a premise): within one
step per delivered byte and one for the empty poll the block is idle again, with a frame of the expected command, or
with `None` and every delivered byte consumed. -/
def Obligations.NonBlockingWaitEnds : Prop :=
  ∀ (bytes : List Byte) (rest : List (Option Byte)) (s : State), s.Inv → s.cs = .wait .host → s.reader.wmode = false →
    s.env.polls = bytes.map some ++ none :: rest →
    ∃ n t, n ≤ bytes.length + 1 ∧ steps n s = .next t ∧ t.cs = .idle ∧
      ((∃ f, t.result = some (.waited (some f)) ∧ f.cmd = s.reader.expect ∧ t.status = .ok) ∨
        n = bytes.length + 1 ∧ t.result = some (.waited none) ∧ t.status = .noFrame ∧ t.env.polls = rest)

/-! ### The correlator -/

/-- `REQ_LOAD` (R190; D17): the request is replaced whole and reads back byte for byte; the bytes of the buffer past it
read as before; nothing else changes but the result. -/
def Obligations.RequestLoadReplacesTheRequest : Prop :=
  ∀ (cmd : Byte) (bytes : List Byte) (s : State), s.cs = .idle → bytes.length ≤ 1022 →
    ∃ r : RequestRegs, exec (.reqLoad cmd bytes) s = .next { s with req := r, result := some .done } ∧
      r.valid = true ∧ r.cmd = cmd ∧ r.len = bytes.length ∧ r.sequence = some bytes ∧
      ∀ a, bytes.length ≤ a → r.bytes.read a = s.req.bytes.read a

/-- `REQ_LOAD` refuses more than 1022 bytes (R190; D17). -/
def Obligations.RequestLoadRefusesLongRequest : Prop :=
  ∀ (cmd : Byte) (bytes : List Byte) (s : State), s.cs = .idle → 1022 < bytes.length →
    exec (.reqLoad cmd bytes) s = .refused .requestTooLong

/-- R197 and R213: with no request loaded `TRANSACT` fails at once, touching nothing but `attempt`, `status` and the
result; so every one does after power-on, and still after every operation but `REQ_LOAD`. -/
def Obligations.TransactWithoutRequestFails : Prop :=
  (∀ (timeout : Time) (s : State), s.cs = .idle → s.req.valid = false →
    exec (.transact timeout) s =
      .next { s with attempt := 0, status := .protocolState, result := some (.raised .protocolState) }) ∧
  (∀ timeout : Time, exec (.transact timeout) State.reset =
    .next { State.reset with status := .protocolState, result := some (.raised .protocolState) }) ∧
  ∀ (i : Instr) (s t : State), s.req.valid = false → (∀ c l, i ≠ .reqLoad c l) → exec i s = .next t →
    t.req.valid = false

/-- `TRANSACT` with a request loaded (R192, R194): the first attempt is due, none has been made; no I/O yet (the start is
a step of its own, log 19). -/
def Obligations.TransactStarts : Prop :=
  ∀ (timeout : Time) (s : State), s.cs = .idle → s.req.valid = true →
    exec (.transact timeout) s = .next { s with attempt := 0, cs := .send timeout, result := none }

/-- The start of an attempt (R193, R194, R71): the whole request is written as one event, then the parser is reset, then
the wait for the request's command begins with the full timeout; the request registers stay. -/
def Obligations.AttemptWritesResetsAndWaits : Prop :=
  ∀ (timeout : Time) (bytes : List Byte) (s : State), s.cs = .send timeout → s.attempt < 4 →
    s.req.sequence = some bytes →
    let parser : ParserRegs := { s.parser with ps := .hunting, rem := 0 }
    let written : Env := { s.env with tx := s.env.tx ++ [bytes] }
    (timeout = 0 → step s = .next { s with
      parser := parser, attempt := s.attempt + 1, env := written, cs := .wait (.transact timeout)
      reader := { s.reader with expect := s.req.cmd, toVal := 0, wmode := false } }) ∧
    (0 < timeout → step s = .next { s with
      parser := parser, attempt := s.attempt + 1, env := written.now.2, cs := .wait (.transact timeout)
      reader := { expect := s.req.cmd, toVal := timeout, wmode := true, tDeadline := written.now.1 + timeout } })

/-- The end of a `TRANSACT` whose budget is used up (R196, R212, R221): `Timeout`, with `ST_TIMEOUT`; the parser stays
where the last byte put it. -/
def Obligations.FifthAttemptIsNeverBegun : Prop :=
  ∀ (timeout : Time) (s : State), s.cs = .send timeout → 4 ≤ s.attempt →
    step s = .next { s with cs := .idle, status := .timeout, result := some (.raised .timeout) }

/-- R201 (derived there), R195, R196: a transaction, watched from its start to the first idle state. At every point the
transport has been given exactly `attempt` copies of the request, `attempt` is at most 4 and the request registers are
as loaded; it ends with `Ok` of a frame latched with the request's command after 1 to 4 attempts, or with `Timeout`
after exactly 4. -/
def Obligations.TransactionWritesOncePerAttempt : Prop :=
  ∀ (timeout : Time) (bytes : List Byte) (s s1 u : State) (n : Nat), s.Inv → s.cs = .idle →
    s.req.sequence = some bytes → exec (.transact timeout) s = .next s1 →
    (∀ m, m < n → ∃ v, steps m s1 = .next v ∧ v.cs ≠ .idle) → steps n s1 = .next u →
    u.req = s.req ∧ u.attempt ≤ 4 ∧ u.env.tx = s.env.tx ++ List.replicate u.attempt bytes ∧
      (u.cs = .idle →
        (1 ≤ u.attempt ∧ u.status = .ok ∧ u.parser.frameOk = true ∧ u.parser.cmdLatched = s.req.cmd ∧
          ∃ l, u.parser.payload = some l ∧ u.result = some (.payload l)) ∨
        (u.attempt = 4 ∧ u.status = .timeout ∧ u.result = some (.raised .timeout)))

/-- R196, last sentence, on a transport that is silent: with timeout 0 the failure is reached after four writes and four
empty polls, and the clock is never looked at. -/
def Obligations.SilentTransportTimesOut : Prop :=
  ∀ (bytes : List Byte) (rest : List (Option Byte)) (s s1 : State), s.cs = .idle → s.req.valid = true →
    s.req.sequence = some bytes → s.env.polls = [none, none, none, none] ++ rest → exec (.transact 0) s = .next s1 →
    ∃ t, steps 9 s1 = .next t ∧ t.cs = .idle ∧ t.status = .timeout ∧ t.result = some (.raised .timeout) ∧
      t.attempt = 4 ∧
      t.env = { s.env with polls := rest, tx := s.env.tx ++ [bytes, bytes, bytes, bytes] }

/-! ### Whole-machine rules -/

/-- The fetch (log 6, 7): idle, the block runs the instruction the host's next call decodes to, refuses a call that
decodes to none, and waits if there is no call; in a wait, a delivered byte's key is decoded in the parser's context, the
instruction runs, and then the match is examined. -/
def Obligations.StepRunsTheDecodedInstruction : Prop :=
  (∀ (s : State) (c : HostCall) (rest : List HostCall) (ctx : RxContext) (i : Instr), s.cs = .idle →
    s.host = c :: rest → decode ctx (.call c) = .ok i → step s = exec i { s with host := rest }) ∧
  (∀ (s : State) (c : HostCall) (rest : List HostCall) (ctx : RxContext) (e : DecodeError), s.cs = .idle →
    s.host = c :: rest → decode ctx (.call c) = .error e → step s = .refused (.undecodable e)) ∧
  (∀ s : State, s.cs = .idle → s.host = [] → step s = .next s) ∧
  ∀ (who : Waiter) (s : State) (b : Byte) (i : Instr), s.cs = .wait who → s.env.rxPoll.1 = some b →
    decode (rxContext s.parser) (.key (rxKey s.parser.ps b)) = .ok i →
    step s = afterByte who (exec i { s with env := s.env.rxPoll.2 })

/-- An operation requested while another runs is refused (R225; D22); the received-byte classes are no operations. -/
def Obligations.OperationsRefusedWhileBusy : Prop :=
  ∀ (i : Instr) (s : State), s.cs ≠ .idle → (∀ cl b, i ≠ RxClass.instr cl b) → exec i s = .refused .busy

/-- Who writes what (R33, R169, R37, R34, R144; D17): only `REQ_LOAD` writes the request registers, only the parser's
path the parser registers, `PARSER_RESET` no more than `ps` and `rem`; only `TRANSACT` writes `status` and `attempt` in
`exec`; no instruction writes to the transport, polls it, or takes a call from the host. Two clauses are the model's:
that `ENCODE` leaves `ck_acc` alone (R140; log 10), and that `exec` of `WAIT_FRAME` and of `TRANSACT` is the entry only
(log 19): what they write later, `status` for the one (R37, R180), the reader registers for the other (R194), is written
by the steps that follow. -/
def Obligations.ExecWritesOnlyItsOwnRegisters : Prop :=
  ∀ (i : Instr) (s t : State), exec i s = .next t →
    ((∀ c l, i ≠ .reqLoad c l) → t.req = s.req) ∧
    ((∀ timeout, i ≠ .transact timeout) → t.status = s.status ∧ t.attempt = s.attempt) ∧
    ((∀ e timeout, i ≠ .waitFrame e timeout) → t.reader = s.reader ∧ t.env = s.env) ∧
    (t.env.tx = s.env.tx ∧ t.env.polls = s.env.polls ∧ t.env.pollCount = s.env.pollCount ∧ t.host = s.host) ∧
    ((∀ cl b, i ≠ RxClass.instr cl b) → (∀ b, i ≠ .feed b) → (∀ c r f l, i ≠ .frameRead c r f l) →
      (∀ c r f l, i ≠ .frameWrite c r f l) →
      t.parser.buf = s.parser.buf ∧ t.parser.wrIdx = s.parser.wrIdx ∧ t.parser.cmdLatched = s.parser.cmdLatched ∧
        t.parser.frameOk = s.parser.frameOk ∧ t.feedOut = s.feedOut ∧
        (i ≠ .parserReset → t.parser = s.parser) ∧ ((∀ l, i ≠ .checksum l) → t.ckAcc = s.ckAcc))

/-- R14 and R144: over any step time does not decrease; the history of writes grows by at most one event, and only when
an attempt of a `TRANSACT` starts. -/
def Obligations.TimeAndWritesOnlyGrow : Prop :=
  ∀ s t : State, step s = .next t →
    s.env.time ≤ t.env.time ∧
      (t.env.tx = s.env.tx ∨
        ∃ timeout bytes, s.cs = .send timeout ∧ s.req.sequence = some bytes ∧ t.env.tx = s.env.tx ++ [bytes])

/-- The registers the host reads (R38, R215; D20): their values while the block is idle, the request registers only with
a request loaded; refused while an operation runs (log 22). -/
def Obligations.HostReadsTheRegisters : Prop :=
  (∀ s : State, s.cs = .idle →
    hostRead .reqValid s = .ok (if s.req.valid then 1 else 0) ∧
    hostRead .attempt s = .ok s.attempt ∧
    hostRead .frameOk s = .ok (if s.parser.frameOk then 1 else 0) ∧
    hostRead .status s = .ok (match s.status with
      | .ok => 0
      | .noFrame => 1
      | .timeout => 2
      | .protocolState => 3) ∧
    (s.req.valid = true → hostRead .reqCmd s = .ok s.req.cmd.toNat ∧ hostRead .reqLen s = .ok s.req.len) ∧
    (s.req.valid = false →
      hostRead .reqCmd s = .error .requestUnreadable ∧ hostRead .reqLen s = .error .requestUnreadable)) ∧
  ∀ (r : HostReg) (s : State), s.cs ≠ .idle → hostRead r s = .error .busy

/-- The frame of the eight received-byte classes (R151 to R158, R66, R169): the byte goes to `buf[wr_idx]`, the marker
to `buf[0]`, a noise byte nowhere; every other address of the buffer reads as before, a byte that finds no frame to end
latches no command, and nothing outside the parser, `ck_acc` and `feedOut` changes. (When the parser writes `ck_acc` is
log 10.) -/
def Obligations.ReceivedByteStoresOnlyAtTheWriteIndex : Prop :=
  ∀ (cl : RxClass) (b : Byte) (s t : State), exec (cl.instr b) s = .next t →
    (cl = .noise → t.parser = s.parser) ∧
    (cl = .marker → ∀ a, t.parser.buf.read a = if a = 0 then some 0xAA else s.parser.buf.read a) ∧
    (cl ≠ .noise → cl ≠ .marker →
      s.parser.wrIdx < 1022 ∧ t.parser.wrIdx = s.parser.wrIdx + 1 ∧
        ∀ a, t.parser.buf.read a = if a = s.parser.wrIdx then some b else s.parser.buf.read a) ∧
    (cl ≠ .lastOk → t.parser.cmdLatched = s.parser.cmdLatched) ∧
    (cl ≠ .lastOk → cl ≠ .lastBad → t.ckAcc = s.ckAcc) ∧
    t.req = s.req ∧ t.attempt = s.attempt ∧ t.reader = s.reader ∧ t.cs = s.cs ∧ t.status = s.status ∧ t.env = s.env ∧
      t.host = s.host ∧ t.result = s.result

/-- The pseudo-operations of R107 are the calls they abbreviate, read by the decoder. -/
def Obligations.PseudoOperationsAreTheirCalls : Prop :=
  ∀ (cmd : Byte) (w : Bool) (payload bytes : List Byte) (timeout : Time),
    (pseudoFeedAll bytes).map decodeCall = bytes.map (fun b => .ok (.feed b)) ∧
    (pseudoDecode bytes).map decodeCall = .ok .parserReset :: bytes.map (fun b => .ok (.feed b)) ∧
    (pseudoTransact cmd bytes timeout).map decodeCall = [.ok (.reqLoad cmd bytes), .ok (.transact timeout)] ∧
    (pseudoRequest cmd w payload timeout).map decodeCall =
      [.ok (.reqLoad cmd (encodeFrame cmd w payload)), .ok (.transact timeout)]

/-! ### Any `CK_STEP` (R127) -/

/-- R127 and R120, R142: whatever function is supplied for `CK_STEP`, `CHECKSUM` and `ENCODE` run it; the instructions
that run no checksum do not depend on it; and with the default, the recurrence of R121, the machine is the machine
itself. (That `ENCODE` leaves `ck_acc` alone is log 10.) -/
def Obligations.SuppliedStepIsTheOneThatRuns : Prop :=
  (∀ (ck : Config.CkStep) (l : List Byte) (s : State), s.cs = .idle →
    execBy ck (.checksum l) s =
      .next { s with ckAcc := l.foldl ck 0x0000, result := some (.checksum (l.foldl ck 0x0000)) }) ∧
  (∀ (ck : Config.CkStep) (cmd : Byte) (w : Bool) (payload : List Byte) (s : State), s.cs = .idle →
    payload.length ≤ 1016 →
    let flags := (1 + payload.length) * 64 + w.toNat
    let covered : List Byte :=
      [0xAA, BitVec.ofNat 8 (flags % 256), BitVec.ofNat 8 (flags / 256), cmd] ++ payload
    execBy ck (.encode cmd w payload) s =
      .next { s with result := some (.bytes
        (covered ++ [lo8 (covered.foldl ck 0x0000), hi8 (covered.foldl ck 0x0000)])) }) ∧
  (∀ (ck : Config.CkStep) (i : Instr) (s : State), (∀ b, i ≠ .rxLastOk b) → (∀ b, i ≠ .rxLastBad b) →
    (∀ b, i ≠ .feed b) → (∀ c r f l, i ≠ .frameRead c r f l) → (∀ c r f l, i ≠ .frameWrite c r f l) →
    (∀ l, i ≠ .checksum l) → (∀ c w l, i ≠ .encode c w l) → execBy ck i s = exec i s) ∧
  (∀ (i : Instr) (s : State), execBy ckStep i s = exec i s) ∧ ∀ s : State, stepBy ckStep s = step s

/-- R157, R158 with R127: whatever is supplied for `CK_STEP`, the last byte of a frame is verified with it; a match
latches the frame, a mismatch leaves `frame_ok` at 0; back to `HUNTING` either way. -/
def Obligations.LastByteIsVerifiedWithTheSuppliedStep : Prop :=
  ∀ (ck : Config.CkStep) (b ckLo : Byte) (covered : List Byte) (s : State), s.Inv ck → s.parser.ps = .accumulating →
    s.parser.rem = 1 → s.parser.held = some (covered ++ [ckLo]) →
    (le16 ckLo b = covered.foldl ck 0x0000 →
      ∃ t, execBy ck (.rxLastOk b) s = .next t ∧ t.parser.frameOk = true ∧ covered[3]? = some t.parser.cmdLatched ∧
        t.parser.ps = .hunting ∧ t.feedOut = .frameReady) ∧
    (le16 ckLo b ≠ covered.foldl ck 0x0000 →
      ∃ t, execBy ck (.rxLastBad b) s = .next t ∧ t.parser.frameOk = false ∧
        t.parser.cmdLatched = s.parser.cmdLatched ∧ t.parser.ps = .hunting ∧ t.feedOut = .incomplete)

/-- R125 consequence (a), of R127's "assume of it only what a claim needs": for every `CK_STEP` that is injective in the
accumulator and in the byte, changing one byte changes the checksum; the recurrence of R121 is such. -/
def Obligations.ChangedByteChangesTheChecksum : Prop :=
  (∀ b : Byte, Function.Injective fun acc => ckStep acc b) ∧ (∀ acc : U16, Function.Injective (ckStep acc)) ∧
  ∀ ck : Config.CkStep, (∀ b, Function.Injective fun acc => ck acc b) → (∀ acc, Function.Injective (ck acc)) →
    ∀ (l : List Byte) (i : Nat) (v : Byte), i < l.length → l[i]? ≠ some v →
      checksum (l.set i v) ck ≠ checksum l ck

/-- R142 (derived there) with R127: the round trip of the encoder and the parser assumes nothing of `CK_STEP`: with any
function supplied to both, the frame is ready at its last byte and reads back exactly. -/
def Obligations.EncodedFrameRoundTripsForAnyStep : Prop :=
  ∀ (ck : Config.CkStep) (cmd : Byte) (w : Bool) (payload : List Byte) (s : State), s.Inv ck → s.cs = .idle →
    s.parser.ps = .hunting → payload.length ≤ 1016 →
    ∃ u, feedRun (encodeFrame cmd w payload ck) s ck = some (readyAtLast (5 + payload.length), u) ∧
      u.parser.frameOk = true ∧ u.parser.cmdLatched = cmd ∧
      ∃ flags, execBy ck .frameGet u =
        .next { u with result := some (.frame { cmd := cmd, write := w, flagsRaw := flags, payload := payload }) }

/-- R42 with R127: every step of the machine with any `CK_STEP` supplied keeps the invariant, its (I5) said of that
function. -/
def Obligations.StepKeepsInvariantForAnyStep : Prop :=
  ∀ (ck : Config.CkStep) (s t : State), s.Inv ck → stepBy ck s = .next t → t.Inv ck

/-! ### No stop once begun -/

/-- R182 and R194 (each gives the step an outcome in every case), with R33 and R42: an operation that has begun never
stops. In every state that meets the invariant a step of a `WAIT_FRAME` or of a `TRANSACT` answers a next state: no
request register and no buffer byte without a value is ever read there (R43 "no rule of this spec reads such a register
before writing it"). -/
def Obligations.RunningOperationNeverStops : Prop :=
  ∀ s : State, s.Inv → s.cs ≠ .idle → ∃ t, step s = .next t
end

