-- ==== Sys2Proof/Laws/Bits.lean ====
section
/-! SUPPORT. Byte order and the fields of the flags, first as numbers (R11, R92, R96), then the round trips that follow:
what each helper reads is what each helper writes. -/

namespace Sys2Proof.Machine

open Sys2Proof

theorem lo8_toNat (v : U16) : (lo8 v).toNat = v.toNat % 256 := by
  simp [lo8]

theorem hi8_toNat (v : U16) : (hi8 v).toNat = v.toNat / 256 := by
  have := v.isLt
  simp [hi8, Nat.shiftRight_eq_div_pow]
  omega

theorem le16_toNat (a b : Byte) : (le16 a b).toNat = a.toNat + 256 * b.toNat := by
  have ha := a.isLt
  have hb := b.isLt
  unfold le16
  rw [BitVec.or_comm, BitVec.toNat_or, BitVec.toNat_shiftLeft, BitVec.toNat_setWidth, BitVec.toNat_setWidth,
    Nat.mod_eq_of_lt (by omega : a.toNat < 2 ^ 16), Nat.mod_eq_of_lt (by omega : b.toNat < 2 ^ 16)]
  rw [Nat.shiftLeft_eq, Nat.mod_eq_of_lt (by omega), Nat.mul_comm, ← Nat.two_pow_add_eq_or_of_lt (i := 8) (by omega)]
  omega

theorem flagsField_toNat (f : U16) : (flagsField f).toNat = f.toNat / 64 := by
  have := f.isLt
  have h : f.toNat / 2 ^ Config.lenShift = f.toNat / 64 := rfl
  rw [flagsField, BitVec.toNat_setWidth, BitVec.toNat_ushiftRight, Nat.shiftRight_eq_div_pow, h]
  exact Nat.mod_eq_of_lt (by omega)

theorem flagsReserved_toNat (f : U16) : (flagsReserved f).toNat = f.toNat / 2 % 32 := by
  simp [flagsReserved, Nat.shiftRight_eq_div_pow]

theorem flagsWrite_eq (f : U16) : flagsWrite f = decide (f.toNat % 2 = 1) := by
  simp [flagsWrite, BitVec.getLsbD, Nat.testBit_zero]

theorem mkFlags_toNat (w : Bool) (r : BitVec 5) (f : BitVec 10) :
    (mkFlags w r f).toNat = f.toNat * 64 + (r.toNat * 2 + w.toNat) := by
  have hf := f.isLt
  have hr := r.isLt
  have hw : w.toNat < 2 := Bool.toNat_lt w
  have h1 : (f.setWidth 16 <<< Config.lenShift : U16).toNat = 2 ^ 6 * f.toNat := by
    rw [BitVec.toNat_shiftLeft, BitVec.toNat_setWidth, Nat.shiftLeft_eq]
    have : 2 ^ Config.lenShift = 64 := rfl
    rw [this]; omega
  have h2 : (r.setWidth 16 <<< (Config.writeBit + 1) : U16).toNat = 2 ^ 1 * r.toNat := by
    rw [BitVec.toNat_shiftLeft, BitVec.toNat_setWidth, Nat.shiftLeft_eq]
    have : 2 ^ (Config.writeBit + 1) = 2 := rfl
    rw [this]; omega
  have h3 : ((BitVec.ofBool w).setWidth 16 <<< Config.writeBit : U16).toNat = w.toNat := by
    cases w <;> rfl
  rw [mkFlags, BitVec.or_assoc, BitVec.toNat_or, BitVec.toNat_or, h1, h2, h3,
    ← Nat.two_pow_add_eq_or_of_lt (i := 1) (by omega), ← Nat.two_pow_add_eq_or_of_lt (i := 6) (by omega)]
  omega

/-- `count` in the numbers of R96. -/
theorem flagsCount_eq (f : U16) : flagsCount f = f.toNat / 64 + 2 := by
  rw [flagsCount, flagsField_toNat]

theorem countInRange_iff (n : Nat) : countInRange n = true ↔ 3 ≤ n ∧ n ≤ 1019 := by
  simp [countInRange]

theorem lo8_le16 (a b : Byte) : lo8 (le16 a b) = a := by
  have := a.isLt
  apply BitVec.eq_of_toNat_eq
  rw [lo8_toNat, le16_toNat]; omega

theorem hi8_le16 (a b : Byte) : hi8 (le16 a b) = b := by
  have := a.isLt
  apply BitVec.eq_of_toNat_eq
  rw [hi8_toNat, le16_toNat]; omega

@[simp] theorem le16_lo8_hi8 (v : U16) : le16 (lo8 v) (hi8 v) = v := by
  apply BitVec.eq_of_toNat_eq
  rw [le16_toNat, lo8_toNat, hi8_toNat]; omega

@[simp] theorem flagsField_mkFlags (w : Bool) (r : BitVec 5) (f : BitVec 10) : flagsField (mkFlags w r f) = f := by
  have hr := r.isLt
  have hw : w.toNat < 2 := Bool.toNat_lt w
  apply BitVec.eq_of_toNat_eq
  rw [flagsField_toNat, mkFlags_toNat]; omega

@[simp] theorem flagsReserved_mkFlags (w : Bool) (r : BitVec 5) (f : BitVec 10) :
    flagsReserved (mkFlags w r f) = r := by
  have hr := r.isLt
  have hw : w.toNat < 2 := Bool.toNat_lt w
  apply BitVec.eq_of_toNat_eq
  rw [flagsReserved_toNat, mkFlags_toNat]; omega

@[simp] theorem flagsWrite_mkFlags (w : Bool) (r : BitVec 5) (f : BitVec 10) : flagsWrite (mkFlags w r f) = w := by
  rw [flagsWrite_eq, mkFlags_toNat]
  cases w <;> simp <;> omega

/-- A flags value is its three fields (R92). -/
@[simp] theorem mkFlags_fields (v : U16) : mkFlags (flagsWrite v) (flagsReserved v) (flagsField v) = v := by
  apply BitVec.eq_of_toNat_eq
  rw [mkFlags_toNat, flagsField_toNat, flagsReserved_toNat, flagsWrite_eq]
  by_cases h : v.toNat % 2 = 1 <;> simp [h] <;> omega

theorem rxKey_toNat (ps : ParserState) (b : Byte) : (rxKey ps b).toNat = ps.code.toNat * 256 + b.toNat := by
  have := b.isLt
  rw [rxKey, BitVec.toNat_append, Nat.shiftLeft_eq, Nat.mul_comm, ← Nat.two_pow_add_eq_or_of_lt (i := 8) (by omega)]

@[simp] theorem rxKey_code (ps : ParserState) (b : Byte) : keyCode (rxKey ps b) = ps.code := by
  have := b.isLt
  have := ps.code.isLt
  apply BitVec.eq_of_toNat_eq
  rw [keyCode, BitVec.toNat_setWidth, BitVec.toNat_ushiftRight, rxKey_toNat, Nat.shiftRight_eq_div_pow]
  omega

@[simp] theorem rxKey_byte (ps : ParserState) (b : Byte) : keyByte (rxKey ps b) = b := by
  have := b.isLt
  apply BitVec.eq_of_toNat_eq
  rw [keyByte, BitVec.toNat_setWidth, rxKey_toNat]
  omega

@[simp] theorem parserStateOf_code (ps : ParserState) : parserStateOf ps.code = some ps := by
  cases ps <;> decide

end Sys2Proof.Machine
end

