-- ==== Sys2Proof/Laws/Memory.lean ====
section
/-! SUPPORT. The laws of the byte spaces: a read after a write, the canonical form kept, sequences of bytes. -/

namespace Sys2Proof.Machine

open Sys2Proof

@[simp] theorem Memory.read_nil (k : Nat) : Memory.read [] k = none := rfl

@[simp] theorem Memory.read_write_same (m : Memory) (k : Nat) (v : Byte) : (m.write k v).read k = some v := by
  induction m with
  | nil => simp [Memory.write, Memory.read]
  | cons c m ih =>
    obtain ⟨a, x⟩ := c
    unfold Memory.write
    split
    · simp [Memory.read]
    · split
      · simp [Memory.read]
      · rename_i h; simp [Memory.read, ih, Ne.symm h]

theorem Memory.read_write_other (m : Memory) {k j : Nat} (v : Byte) (h : j ≠ k) : (m.write k v).read j = m.read j := by
  induction m with
  | nil => simp [Memory.write, Memory.read, Ne.symm h]
  | cons c m ih =>
    obtain ⟨a, x⟩ := c
    unfold Memory.write
    split
    · simp [Memory.read, Ne.symm h]
    · split
      · rename_i _ hk; subst hk; simp [Memory.read, Ne.symm h]
      · simp [Memory.read, ih]

/-- Every cell after a write is the written one or an old one at another address. -/
theorem Memory.mem_write {m : Memory} {k : Nat} {v : Byte} {c : Host.Cell} (h : c ∈ m.write k v) :
    c = (k, v) ∨ c ∈ m := by
  induction m with
  | nil => simpa [Memory.write] using h
  | cons d m ih =>
    obtain ⟨a, x⟩ := d
    unfold Memory.write at h
    split at h
    · simpa using h
    · split at h
      · rcases List.mem_cons.mp h with h | h
        · exact .inl h
        · exact .inr (List.mem_cons_of_mem _ h)
      · rcases List.mem_cons.mp h with h | h
        · exact .inr (h ▸ List.mem_cons_self ..)
        · rcases ih h with h | h
          · exact .inl h
          · exact .inr (List.mem_cons_of_mem _ h)

theorem Memory.write_wf {m : Memory} (h : m.wf) (k : Nat) (v : Byte) : (m.write k v).wf := by
  induction m with
  | nil => simp [Memory.write, Memory.wf]
  | cons c m ih =>
    obtain ⟨a, x⟩ := c
    rw [Memory.wf, List.pairwise_cons] at h
    unfold Memory.write
    split
    · rename_i hk
      refine List.pairwise_cons.mpr ⟨fun d hd => ?_, List.pairwise_cons.mpr h⟩
      rcases List.mem_cons.mp hd with hd | hd
      · subst hd; exact hk
      · exact Nat.lt_trans hk (h.1 d hd)
    · split
      · rename_i _ hk; subst hk; exact List.pairwise_cons.mpr h
      · refine List.pairwise_cons.mpr ⟨fun d hd => ?_, ih h.2⟩
        rcases Memory.mem_write hd with hd | hd
        · subst hd; simp only; omega
        · exact h.1 d hd

theorem Memory.write_within {m : Memory} {n : Nat} (h : m.within n) {k : Nat} (hk : k < n) (v : Byte) :
    (m.write k v).within n := by
  intro c hc
  rcases Memory.mem_write hc with hc | hc
  · subst hc; exact hk
  · exact h c hc

theorem Memory.writeSeq_wf {m : Memory} (h : m.wf) (k : Nat) (l : List Byte) : (m.writeSeq k l).wf := by
  induction l generalizing m k with
  | nil => exact h
  | cons v l ih => exact ih (m.write_wf h k v) (k + 1)

theorem Memory.writeSeq_within {m : Memory} {n : Nat} (h : m.within n) {k : Nat} {l : List Byte}
    (hk : k + l.length ≤ n) : (m.writeSeq k l).within n := by
  induction l generalizing m k with
  | nil => exact h
  | cons v l ih =>
    rw [List.length_cons] at hk
    exact ih (m.write_within h (by omega) v) (by omega)

theorem Memory.read_writeSeq_below (m : Memory) {k j : Nat} (l : List Byte) (h : j < k) :
    (m.writeSeq k l).read j = m.read j := by
  induction l generalizing m k with
  | nil => rfl
  | cons v l ih => rw [Memory.writeSeq, ih _ (by omega), Memory.read_write_other _ _ (by omega)]

/-- Reading back a sequence just written gives it. -/
theorem Memory.readSeq_writeSeq (m : Memory) (k : Nat) (l : List Byte) :
    (m.writeSeq k l).readSeq k l.length = some l := by
  induction l generalizing m k with
  | nil => rfl
  | cons v l ih =>
    rw [List.length_cons, Memory.readSeq, Memory.writeSeq, Memory.read_writeSeq_below _ _ (Nat.lt_succ_self k), ih]
    simp

/-- The reads a sequence is made of. -/
theorem Memory.readSeq_eq_some {m : Memory} {a n : Nat} {l : List Byte} :
    m.readSeq a n = some l ↔ l.length = n ∧ ∀ i, i < n → m.read (a + i) = l[i]? := by
  induction n generalizing a l with
  | zero =>
    simp only [Memory.readSeq, Option.some.injEq]
    constructor
    · intro h; subst h; simp
    · rintro ⟨h, -⟩; exact (List.length_eq_zero_iff.mp h).symm
  | succ n ih =>
    simp only [Memory.readSeq]
    constructor
    · intro h
      split at h
      · rename_i v t hv ht
        cases h
        obtain ⟨hl, hi⟩ := ih.mp ht
        refine ⟨by simp [hl], fun i hi' => ?_⟩
        cases i with
        | zero => simpa using hv
        | succ i => rw [List.getElem?_cons_succ, ← hi i (by omega)]; congr 1; omega
      · cases h
    · rintro ⟨hl, hi⟩
      cases l with
      | nil => simp at hl
      | cons v t =>
        have h0 : m.read a = some v := by simpa using hi 0 (by omega)
        have ht : m.readSeq (a + 1) n = some t := ih.mpr ⟨by simpa using hl, fun i hi' => by
          have := hi (i + 1) (by omega)
          rw [List.getElem?_cons_succ] at this
          rw [← this]; congr 1; omega⟩
        rw [h0, ht]

theorem Memory.readSeq_length {m : Memory} {a n : Nat} {l : List Byte} (h : m.readSeq a n = some l) : l.length = n :=
  (Memory.readSeq_eq_some.mp h).1

/-- A write past a sequence leaves it. -/
theorem Memory.readSeq_write_above (m : Memory) {a n k : Nat} (v : Byte) (h : a + n ≤ k) :
    (m.write k v).readSeq a n = m.readSeq a n := by
  induction n generalizing a with
  | zero => rfl
  | succ n ih => rw [Memory.readSeq, Memory.readSeq, ih (by omega), Memory.read_write_other _ _ (by omega)]

/-- A write just past a sequence extends it. -/
theorem Memory.readSeq_write_end {m : Memory} {a n : Nat} {l : List Byte} (h : m.readSeq a n = some l) (v : Byte) :
    (m.write (a + n) v).readSeq a (n + 1) = some (l ++ [v]) := by
  obtain ⟨hl, hi⟩ := Memory.readSeq_eq_some.mp h
  refine Memory.readSeq_eq_some.mpr ⟨by simp [hl], fun i h' => ?_⟩
  rcases Nat.lt_or_ge i n with hn | hn
  · rw [Memory.read_write_other _ _ (by omega), hi i hn, List.getElem?_append_left (by omega)]
  · obtain rfl : i = n := by omega
    rw [Memory.read_write_same, List.getElem?_append_right (by omega)]
    simp [hl]

/-- A part of a sequence. -/
theorem Memory.readSeq_part {m : Memory} {a n : Nat} {l : List Byte} (h : m.readSeq a n = some l) {i k : Nat}
    (hk : i + k ≤ n) : m.readSeq (a + i) k = some ((l.drop i).take k) := by
  obtain ⟨hl, hi⟩ := Memory.readSeq_eq_some.mp h
  refine Memory.readSeq_eq_some.mpr ⟨by simp [hl]; omega, fun j hj => ?_⟩
  rw [Nat.add_assoc, hi _ (by omega), List.getElem?_take_of_lt hj, List.getElem?_drop]

end Sys2Proof.Machine
end

