-- ==== Sys2Proof/Laws/State.lean ====
section
/-! SUPPORT. One lemma per field of State and update of State: the updated field has the new value, every other field
its old one. Likewise for the updates of the parser registers. -/

namespace Sys2Proof.Machine

open Sys2Proof

@[simp] theorem State.setParser_parser (s : State) (p : ParserRegs) : (s.setParser p).parser = p := rfl
@[simp] theorem State.setParser_ckAcc (s : State) (p : ParserRegs) : (s.setParser p).ckAcc = s.ckAcc := rfl
@[simp] theorem State.setParser_req (s : State) (p : ParserRegs) : (s.setParser p).req = s.req := rfl
@[simp] theorem State.setParser_attempt (s : State) (p : ParserRegs) : (s.setParser p).attempt = s.attempt := rfl
@[simp] theorem State.setParser_reader (s : State) (p : ParserRegs) : (s.setParser p).reader = s.reader := rfl
@[simp] theorem State.setParser_cs (s : State) (p : ParserRegs) : (s.setParser p).cs = s.cs := rfl
@[simp] theorem State.setParser_status (s : State) (p : ParserRegs) : (s.setParser p).status = s.status := rfl
@[simp] theorem State.setParser_env (s : State) (p : ParserRegs) : (s.setParser p).env = s.env := rfl
@[simp] theorem State.setParser_host (s : State) (p : ParserRegs) : (s.setParser p).host = s.host := rfl
@[simp] theorem State.setParser_feedOut (s : State) (p : ParserRegs) : (s.setParser p).feedOut = s.feedOut := rfl
@[simp] theorem State.setParser_result (s : State) (p : ParserRegs) : (s.setParser p).result = s.result := rfl

@[simp] theorem State.setCkAcc_parser (s : State) (v : U16) : (s.setCkAcc v).parser = s.parser := rfl
@[simp] theorem State.setCkAcc_ckAcc (s : State) (v : U16) : (s.setCkAcc v).ckAcc = v := rfl
@[simp] theorem State.setCkAcc_req (s : State) (v : U16) : (s.setCkAcc v).req = s.req := rfl
@[simp] theorem State.setCkAcc_attempt (s : State) (v : U16) : (s.setCkAcc v).attempt = s.attempt := rfl
@[simp] theorem State.setCkAcc_reader (s : State) (v : U16) : (s.setCkAcc v).reader = s.reader := rfl
@[simp] theorem State.setCkAcc_cs (s : State) (v : U16) : (s.setCkAcc v).cs = s.cs := rfl
@[simp] theorem State.setCkAcc_status (s : State) (v : U16) : (s.setCkAcc v).status = s.status := rfl
@[simp] theorem State.setCkAcc_env (s : State) (v : U16) : (s.setCkAcc v).env = s.env := rfl
@[simp] theorem State.setCkAcc_host (s : State) (v : U16) : (s.setCkAcc v).host = s.host := rfl
@[simp] theorem State.setCkAcc_feedOut (s : State) (v : U16) : (s.setCkAcc v).feedOut = s.feedOut := rfl
@[simp] theorem State.setCkAcc_result (s : State) (v : U16) : (s.setCkAcc v).result = s.result := rfl

@[simp] theorem State.setReq_parser (s : State) (r : RequestRegs) : (s.setReq r).parser = s.parser := rfl
@[simp] theorem State.setReq_ckAcc (s : State) (r : RequestRegs) : (s.setReq r).ckAcc = s.ckAcc := rfl
@[simp] theorem State.setReq_req (s : State) (r : RequestRegs) : (s.setReq r).req = r := rfl
@[simp] theorem State.setReq_attempt (s : State) (r : RequestRegs) : (s.setReq r).attempt = s.attempt := rfl
@[simp] theorem State.setReq_reader (s : State) (r : RequestRegs) : (s.setReq r).reader = s.reader := rfl
@[simp] theorem State.setReq_cs (s : State) (r : RequestRegs) : (s.setReq r).cs = s.cs := rfl
@[simp] theorem State.setReq_status (s : State) (r : RequestRegs) : (s.setReq r).status = s.status := rfl
@[simp] theorem State.setReq_env (s : State) (r : RequestRegs) : (s.setReq r).env = s.env := rfl
@[simp] theorem State.setReq_host (s : State) (r : RequestRegs) : (s.setReq r).host = s.host := rfl
@[simp] theorem State.setReq_feedOut (s : State) (r : RequestRegs) : (s.setReq r).feedOut = s.feedOut := rfl
@[simp] theorem State.setReq_result (s : State) (r : RequestRegs) : (s.setReq r).result = s.result := rfl

@[simp] theorem State.setAttempt_parser (s : State) (n : Nat) : (s.setAttempt n).parser = s.parser := rfl
@[simp] theorem State.setAttempt_ckAcc (s : State) (n : Nat) : (s.setAttempt n).ckAcc = s.ckAcc := rfl
@[simp] theorem State.setAttempt_req (s : State) (n : Nat) : (s.setAttempt n).req = s.req := rfl
@[simp] theorem State.setAttempt_attempt (s : State) (n : Nat) : (s.setAttempt n).attempt = n := rfl
@[simp] theorem State.setAttempt_reader (s : State) (n : Nat) : (s.setAttempt n).reader = s.reader := rfl
@[simp] theorem State.setAttempt_cs (s : State) (n : Nat) : (s.setAttempt n).cs = s.cs := rfl
@[simp] theorem State.setAttempt_status (s : State) (n : Nat) : (s.setAttempt n).status = s.status := rfl
@[simp] theorem State.setAttempt_env (s : State) (n : Nat) : (s.setAttempt n).env = s.env := rfl
@[simp] theorem State.setAttempt_host (s : State) (n : Nat) : (s.setAttempt n).host = s.host := rfl
@[simp] theorem State.setAttempt_feedOut (s : State) (n : Nat) : (s.setAttempt n).feedOut = s.feedOut := rfl
@[simp] theorem State.setAttempt_result (s : State) (n : Nat) : (s.setAttempt n).result = s.result := rfl

@[simp] theorem State.setReader_parser (s : State) (r : ReaderRegs) : (s.setReader r).parser = s.parser := rfl
@[simp] theorem State.setReader_ckAcc (s : State) (r : ReaderRegs) : (s.setReader r).ckAcc = s.ckAcc := rfl
@[simp] theorem State.setReader_req (s : State) (r : ReaderRegs) : (s.setReader r).req = s.req := rfl
@[simp] theorem State.setReader_attempt (s : State) (r : ReaderRegs) : (s.setReader r).attempt = s.attempt := rfl
@[simp] theorem State.setReader_reader (s : State) (r : ReaderRegs) : (s.setReader r).reader = r := rfl
@[simp] theorem State.setReader_cs (s : State) (r : ReaderRegs) : (s.setReader r).cs = s.cs := rfl
@[simp] theorem State.setReader_status (s : State) (r : ReaderRegs) : (s.setReader r).status = s.status := rfl
@[simp] theorem State.setReader_env (s : State) (r : ReaderRegs) : (s.setReader r).env = s.env := rfl
@[simp] theorem State.setReader_host (s : State) (r : ReaderRegs) : (s.setReader r).host = s.host := rfl
@[simp] theorem State.setReader_feedOut (s : State) (r : ReaderRegs) : (s.setReader r).feedOut = s.feedOut := rfl
@[simp] theorem State.setReader_result (s : State) (r : ReaderRegs) : (s.setReader r).result = s.result := rfl

@[simp] theorem State.setCs_parser (s : State) (c : Phase) : (s.setCs c).parser = s.parser := rfl
@[simp] theorem State.setCs_ckAcc (s : State) (c : Phase) : (s.setCs c).ckAcc = s.ckAcc := rfl
@[simp] theorem State.setCs_req (s : State) (c : Phase) : (s.setCs c).req = s.req := rfl
@[simp] theorem State.setCs_attempt (s : State) (c : Phase) : (s.setCs c).attempt = s.attempt := rfl
@[simp] theorem State.setCs_reader (s : State) (c : Phase) : (s.setCs c).reader = s.reader := rfl
@[simp] theorem State.setCs_cs (s : State) (c : Phase) : (s.setCs c).cs = c := rfl
@[simp] theorem State.setCs_status (s : State) (c : Phase) : (s.setCs c).status = s.status := rfl
@[simp] theorem State.setCs_env (s : State) (c : Phase) : (s.setCs c).env = s.env := rfl
@[simp] theorem State.setCs_host (s : State) (c : Phase) : (s.setCs c).host = s.host := rfl
@[simp] theorem State.setCs_feedOut (s : State) (c : Phase) : (s.setCs c).feedOut = s.feedOut := rfl
@[simp] theorem State.setCs_result (s : State) (c : Phase) : (s.setCs c).result = s.result := rfl

@[simp] theorem State.setStatus_parser (s : State) (c : Status) : (s.setStatus c).parser = s.parser := rfl
@[simp] theorem State.setStatus_ckAcc (s : State) (c : Status) : (s.setStatus c).ckAcc = s.ckAcc := rfl
@[simp] theorem State.setStatus_req (s : State) (c : Status) : (s.setStatus c).req = s.req := rfl
@[simp] theorem State.setStatus_attempt (s : State) (c : Status) : (s.setStatus c).attempt = s.attempt := rfl
@[simp] theorem State.setStatus_reader (s : State) (c : Status) : (s.setStatus c).reader = s.reader := rfl
@[simp] theorem State.setStatus_cs (s : State) (c : Status) : (s.setStatus c).cs = s.cs := rfl
@[simp] theorem State.setStatus_status (s : State) (c : Status) : (s.setStatus c).status = c := rfl
@[simp] theorem State.setStatus_env (s : State) (c : Status) : (s.setStatus c).env = s.env := rfl
@[simp] theorem State.setStatus_host (s : State) (c : Status) : (s.setStatus c).host = s.host := rfl
@[simp] theorem State.setStatus_feedOut (s : State) (c : Status) : (s.setStatus c).feedOut = s.feedOut := rfl
@[simp] theorem State.setStatus_result (s : State) (c : Status) : (s.setStatus c).result = s.result := rfl

@[simp] theorem State.setEnv_parser (s : State) (e : Env) : (s.setEnv e).parser = s.parser := rfl
@[simp] theorem State.setEnv_ckAcc (s : State) (e : Env) : (s.setEnv e).ckAcc = s.ckAcc := rfl
@[simp] theorem State.setEnv_req (s : State) (e : Env) : (s.setEnv e).req = s.req := rfl
@[simp] theorem State.setEnv_attempt (s : State) (e : Env) : (s.setEnv e).attempt = s.attempt := rfl
@[simp] theorem State.setEnv_reader (s : State) (e : Env) : (s.setEnv e).reader = s.reader := rfl
@[simp] theorem State.setEnv_cs (s : State) (e : Env) : (s.setEnv e).cs = s.cs := rfl
@[simp] theorem State.setEnv_status (s : State) (e : Env) : (s.setEnv e).status = s.status := rfl
@[simp] theorem State.setEnv_env (s : State) (e : Env) : (s.setEnv e).env = e := rfl
@[simp] theorem State.setEnv_host (s : State) (e : Env) : (s.setEnv e).host = s.host := rfl
@[simp] theorem State.setEnv_feedOut (s : State) (e : Env) : (s.setEnv e).feedOut = s.feedOut := rfl
@[simp] theorem State.setEnv_result (s : State) (e : Env) : (s.setEnv e).result = s.result := rfl

@[simp] theorem State.setHost_parser (s : State) (l : List HostCall) : (s.setHost l).parser = s.parser := rfl
@[simp] theorem State.setHost_ckAcc (s : State) (l : List HostCall) : (s.setHost l).ckAcc = s.ckAcc := rfl
@[simp] theorem State.setHost_req (s : State) (l : List HostCall) : (s.setHost l).req = s.req := rfl
@[simp] theorem State.setHost_attempt (s : State) (l : List HostCall) : (s.setHost l).attempt = s.attempt := rfl
@[simp] theorem State.setHost_reader (s : State) (l : List HostCall) : (s.setHost l).reader = s.reader := rfl
@[simp] theorem State.setHost_cs (s : State) (l : List HostCall) : (s.setHost l).cs = s.cs := rfl
@[simp] theorem State.setHost_status (s : State) (l : List HostCall) : (s.setHost l).status = s.status := rfl
@[simp] theorem State.setHost_env (s : State) (l : List HostCall) : (s.setHost l).env = s.env := rfl
@[simp] theorem State.setHost_host (s : State) (l : List HostCall) : (s.setHost l).host = l := rfl
@[simp] theorem State.setHost_feedOut (s : State) (l : List HostCall) : (s.setHost l).feedOut = s.feedOut := rfl
@[simp] theorem State.setHost_result (s : State) (l : List HostCall) : (s.setHost l).result = s.result := rfl

@[simp] theorem State.setFeedOut_parser (s : State) (r : FeedResult) : (s.setFeedOut r).parser = s.parser := rfl
@[simp] theorem State.setFeedOut_ckAcc (s : State) (r : FeedResult) : (s.setFeedOut r).ckAcc = s.ckAcc := rfl
@[simp] theorem State.setFeedOut_req (s : State) (r : FeedResult) : (s.setFeedOut r).req = s.req := rfl
@[simp] theorem State.setFeedOut_attempt (s : State) (r : FeedResult) : (s.setFeedOut r).attempt = s.attempt := rfl
@[simp] theorem State.setFeedOut_reader (s : State) (r : FeedResult) : (s.setFeedOut r).reader = s.reader := rfl
@[simp] theorem State.setFeedOut_cs (s : State) (r : FeedResult) : (s.setFeedOut r).cs = s.cs := rfl
@[simp] theorem State.setFeedOut_status (s : State) (r : FeedResult) : (s.setFeedOut r).status = s.status := rfl
@[simp] theorem State.setFeedOut_env (s : State) (r : FeedResult) : (s.setFeedOut r).env = s.env := rfl
@[simp] theorem State.setFeedOut_host (s : State) (r : FeedResult) : (s.setFeedOut r).host = s.host := rfl
@[simp] theorem State.setFeedOut_feedOut (s : State) (r : FeedResult) : (s.setFeedOut r).feedOut = r := rfl
@[simp] theorem State.setFeedOut_result (s : State) (r : FeedResult) : (s.setFeedOut r).result = s.result := rfl

@[simp] theorem State.setResult_parser (s : State) (r : Option OpResult) : (s.setResult r).parser = s.parser := rfl
@[simp] theorem State.setResult_ckAcc (s : State) (r : Option OpResult) : (s.setResult r).ckAcc = s.ckAcc := rfl
@[simp] theorem State.setResult_req (s : State) (r : Option OpResult) : (s.setResult r).req = s.req := rfl
@[simp] theorem State.setResult_attempt (s : State) (r : Option OpResult) : (s.setResult r).attempt = s.attempt := rfl
@[simp] theorem State.setResult_reader (s : State) (r : Option OpResult) : (s.setResult r).reader = s.reader := rfl
@[simp] theorem State.setResult_cs (s : State) (r : Option OpResult) : (s.setResult r).cs = s.cs := rfl
@[simp] theorem State.setResult_status (s : State) (r : Option OpResult) : (s.setResult r).status = s.status := rfl
@[simp] theorem State.setResult_env (s : State) (r : Option OpResult) : (s.setResult r).env = s.env := rfl
@[simp] theorem State.setResult_host (s : State) (r : Option OpResult) : (s.setResult r).host = s.host := rfl
@[simp] theorem State.setResult_feedOut (s : State) (r : Option OpResult) : (s.setResult r).feedOut = s.feedOut := rfl
@[simp] theorem State.setResult_result (s : State) (r : Option OpResult) : (s.setResult r).result = r := rfl

@[simp] theorem ParserRegs.append_ps (p : ParserRegs) (b : Byte) : (p.append b).ps = p.ps := rfl
@[simp] theorem ParserRegs.append_buf (p : ParserRegs) (b : Byte) : (p.append b).buf = p.buf.write p.wrIdx b := rfl
@[simp] theorem ParserRegs.append_wrIdx (p : ParserRegs) (b : Byte) : (p.append b).wrIdx = p.wrIdx + 1 := rfl
@[simp] theorem ParserRegs.append_rem (p : ParserRegs) (b : Byte) : (p.append b).rem = p.rem := rfl
@[simp] theorem ParserRegs.append_cmdLatched (p : ParserRegs) (b : Byte) : (p.append b).cmdLatched = p.cmdLatched := rfl
@[simp] theorem ParserRegs.append_frameOk (p : ParserRegs) (b : Byte) : (p.append b).frameOk = p.frameOk := rfl

@[simp] theorem ParserRegs.clear_ps (p : ParserRegs) : p.clear.ps = p.ps := rfl
@[simp] theorem ParserRegs.clear_buf (p : ParserRegs) : p.clear.buf = p.buf := rfl
@[simp] theorem ParserRegs.clear_wrIdx (p : ParserRegs) : p.clear.wrIdx = 0 := rfl
@[simp] theorem ParserRegs.clear_rem (p : ParserRegs) : p.clear.rem = p.rem := rfl
@[simp] theorem ParserRegs.clear_cmdLatched (p : ParserRegs) : p.clear.cmdLatched = p.cmdLatched := rfl
@[simp] theorem ParserRegs.clear_frameOk (p : ParserRegs) : p.clear.frameOk = p.frameOk := rfl

@[simp] theorem Env.txWrite_polls (e : Env) (bytes : List Byte) : (e.txWrite bytes).polls = e.polls := rfl
@[simp] theorem Env.txWrite_pollCount (e : Env) (bytes : List Byte) : (e.txWrite bytes).pollCount = e.pollCount := rfl
@[simp] theorem Env.txWrite_ticks (e : Env) (bytes : List Byte) : (e.txWrite bytes).ticks = e.ticks := rfl
@[simp] theorem Env.txWrite_tickCount (e : Env) (bytes : List Byte) : (e.txWrite bytes).tickCount = e.tickCount := rfl
@[simp] theorem Env.txWrite_time (e : Env) (bytes : List Byte) : (e.txWrite bytes).time = e.time := rfl
@[simp] theorem Env.txWrite_tx (e : Env) (bytes : List Byte) : (e.txWrite bytes).tx = e.tx ++ [bytes] := rfl

/-- A poll answers, and touches neither the clock nor the writes. -/
theorem Env.rxPoll_frame (e : Env) :
    e.rxPoll.2.ticks = e.ticks ∧ e.rxPoll.2.tickCount = e.tickCount ∧ e.rxPoll.2.time = e.time ∧ e.rxPoll.2.tx = e.tx := by
  unfold Env.rxPoll
  split <;> simp

/-- A look at the clock touches neither the answers still to come nor the writes, and time never decreases (R14). -/
theorem Env.now_frame (e : Env) :
    e.now.2.polls = e.polls ∧ e.now.2.pollCount = e.pollCount ∧ e.now.2.tx = e.tx ∧ e.now.2.time = e.now.1 ∧
      e.time ≤ e.now.1 := by
  unfold Env.now
  split <;> simp

@[simp] theorem Env.rxPoll_tx (e : Env) : e.rxPoll.2.tx = e.tx := e.rxPoll_frame.2.2.2
@[simp] theorem Env.now_tx (e : Env) : e.now.2.tx = e.tx := e.now_frame.2.2.1
@[simp] theorem Env.now_polls (e : Env) : e.now.2.polls = e.polls := e.now_frame.1

end Sys2Proof.Machine
end

