-- ==== Sys2Proof/Laws/Supplied.lean ====
section
/-! SUPPORT. The machine with a `CK_STEP` supplied is, at the default, the machine of Dispatch.lean and Step.lean
(spec/40_checksum.md R127). -/

namespace Sys2Proof.Machine

open Sys2Proof

/-- One instruction. -/
@[simp] theorem execBy_default (i : Instr) (s : State) : execBy Config.ckStep i s = exec i s := by cases i <;> rfl

/-- One step. -/
@[simp] theorem stepBy_default (s : State) : stepBy Config.ckStep s = step s := by
  have h : execBy Config.ckStep = exec := funext fun i => funext fun t => execBy_default i t
  cases hc : s.cs <;> simp only [stepBy, step, hc, h]

end Sys2Proof.Machine
end

