-- ==== Sys2Proof/Laws/Parser.lean ====
section
/-! SUPPORT. The frame buffer as the list of the bytes it holds, and what each received-byte class does: one equation
per class, in the states R104 gives it. -/

namespace Sys2Proof.Machine

open Sys2Proof

/-! ### The bytes held -/

namespace ParserRegs

theorem held_length {p : ParserRegs} {l : List Byte} (h : p.held = some l) : l.length = p.wrIdx := by
  simpa [held, readRange] using Memory.readSeq_length (by simpa [held, readRange] using h)

theorem held_eq_some {p : ParserRegs} {l : List Byte} :
    p.held = some l ↔ l.length = p.wrIdx ∧ ∀ i, i < p.wrIdx → p.buf.read i = l[i]? := by
  simp [held, readRange, Memory.readSeq_eq_some]

theorem readBuf_of_held {p : ParserRegs} {l : List Byte} (h : p.held = some l) (i : Nat) : p.readBuf i = l[i]? := by
  obtain ⟨hl, hi⟩ := held_eq_some.mp h
  unfold readBuf
  split
  · exact hi i ‹_›
  · rw [List.getElem?_eq_none (by omega)]

theorem readRange_of_held {p : ParserRegs} {l : List Byte} (h : p.held = some l) {i j : Nat} (hij : i ≤ j)
    (hj : j ≤ p.wrIdx) : p.readRange i j = some ((l.drop i).take (j - i)) := by
  have h0 : p.buf.readSeq 0 p.wrIdx = some l := by simpa [held, readRange] using h
  have := Memory.readSeq_part h0 (i := i) (k := j - i) (by omega)
  rw [Nat.zero_add] at this
  rw [readRange, if_pos hj, this]

theorem read16_of_held {p : ParserRegs} {l : List Byte} (h : p.held = some l) {a : Nat} {x y : Byte}
    (hx : l[a]? = some x) (hy : l[a + 1]? = some y) : p.read16 a = some (le16 x y) := by
  rw [read16, readBuf_of_held h, readBuf_of_held h, hx, hy]

theorem held_append {p : ParserRegs} {l : List Byte} (h : p.held = some l) (b : Byte) :
    (p.append b).held = some (l ++ [b]) := by
  have h0 : p.buf.readSeq 0 p.wrIdx = some l := by simpa [held, readRange] using h
  have := Memory.readSeq_write_end h0 b
  rw [Nat.zero_add] at this
  simpa [held, readRange] using this

theorem held_clear (p : ParserRegs) : p.clear.held = some [] := by
  simp [held, readRange, Memory.readSeq]

/-- The buffer reads depend on `buf` and `wr_idx` only. -/
theorem held_congr {p q : ParserRegs} (hb : p.buf = q.buf) (hw : p.wrIdx = q.wrIdx) : p.held = q.held := by
  simp [held, readRange, hb, hw]

theorem bufInv_append {p : ParserRegs} (h : p.bufInv) (hw : p.wrIdx < Config.bufBytes) (b : Byte) :
    (p.append b).bufInv := by
  obtain ⟨h1, h2, -, h4⟩ := h
  obtain ⟨l, hl⟩ := Option.isSome_iff_exists.mp h4
  refine ⟨Memory.write_wf h1 _ _, Memory.write_within h2 hw _, hw, ?_⟩
  exact Option.isSome_iff_exists.mpr ⟨_, held_append hl b⟩

theorem bufInv_clear {p : ParserRegs} (h : p.bufInv) : p.clear.bufInv :=
  ⟨h.1, h.2.1, Nat.zero_le _, Option.isSome_iff_exists.mpr ⟨_, held_clear p⟩⟩

theorem bufInv_congr {p q : ParserRegs} (hb : p.buf = q.buf) (hw : p.wrIdx = q.wrIdx) (h : q.bufInv) : p.bufInv := by
  obtain ⟨h1, h2, h3, h4⟩ := h
  exact ⟨hb ▸ h1, hb ▸ h2, hw ▸ h3, by rw [show p.readRange 0 p.wrIdx = _ from held_congr hb hw]; exact h4⟩

theorem Inv.held {p : ParserRegs} {ck : Config.CkStep} (h : p.Inv ck) : ∃ l, p.held = some l ∧ l.length = p.wrIdx := by
  obtain ⟨l, hl⟩ := Option.isSome_iff_exists.mp h.1.2.2.2
  exact ⟨l, hl, held_length hl⟩

end ParserRegs

/-! ### The phase invariant, one value of `ps` at a time -/

namespace ParserRegs

theorem phaseInv_gotMarker {p : ParserRegs} (h : p.phaseInv) (hp : p.ps = .gotMarker) :
    p.wrIdx = 1 ∧ p.readBuf 0 = some Config.marker ∧ p.frameOk = false ∧ p.rem = 0 := h.2.1 hp

theorem phaseInv_gotFlagsLow {p : ParserRegs} (h : p.phaseInv) (hp : p.ps = .gotFlagsLow) :
    p.wrIdx = 2 ∧ p.readBuf 0 = some Config.marker ∧ p.frameOk = false ∧ p.rem = 0 := h.2.2.1 hp

theorem phaseInv_accumulating {p : ParserRegs} (h : p.phaseInv) (hp : p.ps = .accumulating) :
    (3 ≤ p.wrIdx ∧ p.wrIdx ≤ 1021) ∧ (1 ≤ p.rem ∧ p.rem ≤ 1019) ∧
      (∃ n, p.count = some n ∧ (3 ≤ n ∧ n ≤ 1019) ∧ p.wrIdx + p.rem = 3 + n) ∧
      p.readBuf 0 = some Config.marker ∧ p.frameOk = false := by
  obtain ⟨a, b, ⟨n, hn, c, d⟩, e, f⟩ := h.2.2.2 hp
  exact ⟨a, b, ⟨n, hn, c, d⟩, e, f⟩

theorem phaseInv_of_hunting {p : ParserRegs} (hp : p.ps = .hunting) (h : p.rem = 0) : p.phaseInv :=
  ⟨fun _ => h, fun e => absurd (hp.symm.trans e) (by decide), fun e => absurd (hp.symm.trans e) (by decide), fun e => absurd (hp.symm.trans e) (by decide)⟩

theorem phaseInv_of_gotMarker {p : ParserRegs} (hp : p.ps = .gotMarker)
    (h : p.wrIdx = 1 ∧ p.readBuf 0 = some Config.marker ∧ p.frameOk = false ∧ p.rem = 0) : p.phaseInv :=
  ⟨fun e => absurd (hp.symm.trans e) (by decide), fun _ => h, fun e => absurd (hp.symm.trans e) (by decide), fun e => absurd (hp.symm.trans e) (by decide)⟩

theorem phaseInv_of_gotFlagsLow {p : ParserRegs} (hp : p.ps = .gotFlagsLow)
    (h : p.wrIdx = 2 ∧ p.readBuf 0 = some Config.marker ∧ p.frameOk = false ∧ p.rem = 0) : p.phaseInv :=
  ⟨fun e => absurd (hp.symm.trans e) (by decide), fun e => absurd (hp.symm.trans e) (by decide), fun _ => h, fun e => absurd (hp.symm.trans e) (by decide)⟩

theorem phaseInv_of_accumulating {p : ParserRegs} (hp : p.ps = .accumulating) {n : Nat}
    (h1 : 3 ≤ p.wrIdx ∧ p.wrIdx ≤ 1021) (h2 : 1 ≤ p.rem ∧ p.rem ≤ 1019) (h3 : p.count = some n)
    (h4 : 3 ≤ n ∧ n ≤ 1019) (h5 : p.wrIdx + p.rem = 3 + n) (h6 : p.readBuf 0 = some Config.marker)
    (h7 : p.frameOk = false) : p.phaseInv :=
  ⟨fun e => absurd (hp.symm.trans e) (by decide), fun e => absurd (hp.symm.trans e) (by decide), fun e => absurd (hp.symm.trans e) (by decide),
    fun _ => ⟨h1, h2, ⟨n, h3, h4, h5⟩, h6, h7⟩⟩

end ParserRegs

/-! ### The shared operations -/

variable {ck : Config.CkStep}

theorem appendThen_eq {b : Byte} {s : State} {k : State → Out} (h : s.parser.wrIdx < Config.bufBytes) :
    appendThen b s k = k (s.setParser (s.parser.append b)) := if_pos h

theorem readThen_eq {i : Nat} {s : State} {k : Byte → Out} {v : Byte} (h : s.parser.readBuf i = some v) :
    readThen i s k = k v := by rw [readThen, h]

theorem verifyThen_eq {s : State} {k : State → Out} {l : List Byte}
    (h : s.parser.readRange 0 (s.parser.wrIdx - 2) = some l) : verifyThen ck s k = k (s.setCkAcc (checksum l ck)) := by
  rw [verifyThen, ParserRegs.ckCovered, h]; rfl

theorem inClass_eq {cl : RxClass} {b : Byte} {s : State} {k : Out} (h : rxClass s.parser b ck = .ok cl) :
    inClass ck cl b s k = k := by rw [inClass, h]; simp

/-- A class that answers a next state was the one R104 gives the byte. -/
theorem inClass_next {cl : RxClass} {b : Byte} {s t : State} {k : Out} (h : inClass ck cl b s k = .next t) :
    rxClass s.parser b ck = .ok cl ∧ k = .next t := by
  unfold inClass at h
  split at h
  · split at h
    · rename_i hc he; exact ⟨he ▸ hc, h⟩
    · cases h
  · cases h

theorem whenIdle_idle {s : State} {k : Out} (h : s.cs = .idle) : whenIdle s k = k := by rw [whenIdle, h]

theorem whenIdle_busy {s : State} {k : Out} (h : s.cs ≠ .idle) : whenIdle s k = .refused .busy := by
  unfold whenIdle
  split
  · contradiction
  · rfl
  · rfl

theorem whenIdle_next {s t : State} {k : Out} (h : whenIdle s k = .next t) : s.cs = .idle ∧ k = .next t := by
  unfold whenIdle at h
  split at h
  · exact ⟨‹_›, h⟩
  · cases h
  · cases h

theorem afterFeed_next {o : Out} {k : State → Out} {t : State} (h : afterFeed o k = .next t) :
    ∃ s, o = .next s ∧ k s = .next t := by
  cases o with
  | next s => exact ⟨s, rfl, h⟩
  | fault r => cases h
  | refused r => cases h

/-! ### The table of R104 -/

theorem rxClass_noise {p : ParserRegs} {b : Byte} (h : p.ps = .hunting) (hb : b ≠ Config.marker) :
    rxClass p b ck = .ok .noise := by
  simp only [rxClass, classify, h]
  rw [if_neg hb]

theorem rxClass_marker {p : ParserRegs} (h : p.ps = .hunting) : rxClass p Config.marker ck = .ok .marker := by
  simp [rxClass, classify, h]

theorem rxClass_flagsLo {p : ParserRegs} (h : p.ps = .gotMarker) (b : Byte) : rxClass p b ck = .ok .flagsLo := by
  simp [rxClass, classify, h]

theorem rxClass_flagsHi {p : ParserRegs} (h : p.ps = .gotFlagsLow) {lo : Byte} (hl : p.readBuf 1 = some lo) (b : Byte) :
    rxClass p b ck = .ok (if countInRange (flagsCount (le16 lo b)) then .flagsHiOk else .flagsHiBad) := by
  simp only [rxClass, classify, h, rxContext, hl]
  split <;> rfl

theorem rxClass_body {p : ParserRegs} (h : p.ps = .accumulating) (hr : 1 < p.rem) (b : Byte) :
    rxClass p b ck = .ok .body := by simp [rxClass, classify, h, rxContext, hr]

theorem rxClass_last {p : ParserRegs} (h : p.ps = .accumulating) (hr : p.rem = 1) {lo : Byte} {l : List Byte}
    (hl : p.readBuf (p.wrIdx - 1) = some lo) (hc : p.readRange 0 (p.wrIdx - 1) = some l) (b : Byte) :
    rxClass p b ck = .ok (if le16 lo b = checksum l ck then .lastOk else .lastBad) := by
  simp only [rxClass, classify, h, rxContext, hr, hl, hc]
  simp only [Nat.lt_irrefl, if_false, Option.map_some, if_true]
  split <;> rfl

/-- The decoder's class is the row whose condition holds. -/
theorem rowHolds_of_rxClass {p : ParserRegs} {b : Byte} {cl : RxClass} (h : rxClass p b ck = .ok cl) :
    RowHolds p b cl ck := by
  unfold rxClass classify at h
  split at h
  · split at h <;> cases h
    · exact ⟨‹_›, ‹_›⟩
    · exact ⟨‹_›, ‹_›⟩
  · cases h; assumption
  · split at h
    · cases h
    · rename_i lo hlo
      split at h <;> cases h
      · rename_i hc
        rw [flagsCount_eq, countInRange_iff] at hc
        exact ⟨‹_›, lo, hlo, hc⟩
      · rename_i hc
        rw [flagsCount_eq, countInRange_iff] at hc
        exact ⟨‹_›, lo, hlo, hc⟩
  · split at h
    · cases h; exact ⟨‹_›, ‹_›⟩
    · split at h
      · split at h
        · rename_i lo ck hlo hck
          obtain ⟨l, hl, rfl⟩ := Option.map_eq_some_iff.mp hck
          split at h <;> cases h
          · exact ⟨‹_›, ‹_›, lo, l, hlo, hl, ‹_›⟩
          · exact ⟨‹_›, ‹_›, lo, l, hlo, hl, ‹_›⟩
        · cases h
      · cases h

/-- A row whose condition holds is the decoder's class. -/
theorem rxClass_of_rowHolds {p : ParserRegs} {b : Byte} {cl : RxClass} (h : RowHolds p b cl ck) :
    rxClass p b ck = .ok cl := by
  cases cl with
  | noise => exact rxClass_noise h.1 h.2
  | marker => obtain ⟨h, rfl⟩ := h; exact rxClass_marker h
  | flagsLo => exact rxClass_flagsLo h b
  | flagsHiOk =>
    obtain ⟨h, lo, hl, hc⟩ := h
    rw [rxClass_flagsHi h hl, if_pos (by rw [flagsCount_eq, countInRange_iff]; exact hc)]
  | flagsHiBad =>
    obtain ⟨h, lo, hl, hc⟩ := h
    rw [rxClass_flagsHi h hl, if_neg (by rw [flagsCount_eq, countInRange_iff]; exact hc)]
  | body => exact rxClass_body h.1 h.2 b
  | lastOk => obtain ⟨h, hr, lo, l, hl, hc, he⟩ := h; rw [rxClass_last h hr hl hc, if_pos he]
  | lastBad => obtain ⟨h, hr, lo, l, hl, hc, he⟩ := h; rw [rxClass_last h hr hl hc, if_neg he]

/-- `FEED` runs the instruction of the byte's class, whatever `CK_STEP` is. -/
theorem feedByte_eq_execBy {b : Byte} {s : State} {cl : RxClass} (h : rxClass s.parser b ck = .ok cl) :
    feedByte b s ck = execBy ck (cl.instr b) s := by
  rw [feedByte, h]
  cases cl <;> rfl

/-- `FEED` runs the instruction of the byte's class. -/
theorem feedByte_eq_exec {b : Byte} {s : State} {cl : RxClass} (h : rxClass s.parser b = .ok cl) :
    feedByte b s = exec (cl.instr b) s := (feedByte_eq_execBy h).trans (execBy_default _ _)

/-! ### What each class does, whatever `CK_STEP` is -/

theorem execRxNoise_eq {b : Byte} {s : State} (h : RowHolds s.parser b .noise ck) :
    execRxNoiseBy ck b s = .next (s.setFeedOut .incomplete) := by
  rw [execRxNoiseBy, inClass_eq (rxClass_of_rowHolds h)]; rfl

theorem execRxMarker_eq {s : State} (h : s.parser.ps = .hunting) :
    execRxMarkerBy ck s = .next ((s.setParser { s.parser with
      ps := .gotMarker, buf := s.parser.buf.write 0 Config.marker, wrIdx := 1, frameOk := false }).setFeedOut .incomplete) := by
  rw [execRxMarkerBy, inClass_eq (rxClass_marker h), appendThen_eq (Nat.zero_lt_succ _)]; rfl

theorem execRxFlagsLo_eq {b : Byte} {s : State} (h : s.parser.ps = .gotMarker) (hw : s.parser.wrIdx < Config.bufBytes) :
    execRxFlagsLoBy ck b s = .next ((s.setParser { s.parser.append b with ps := .gotFlagsLow }).setFeedOut .incomplete) := by
  rw [execRxFlagsLoBy, inClass_eq (rxClass_flagsLo h b), appendThen_eq hw]; rfl

theorem execRxFlagsHiOk_eq {b lo : Byte} {s : State} (h : s.parser.ps = .gotFlagsLow) (hw : s.parser.wrIdx = 2)
    (hl : s.parser.readBuf 1 = some lo) (hc : countInRange (flagsCount (le16 lo b)) = true) :
    execRxFlagsHiOkBy ck b s = .next ((s.setParser { s.parser.append b with
      ps := .accumulating, rem := flagsCount (le16 lo b) }).setFeedOut .incomplete) := by
  have hcl : rxClass s.parser b ck = .ok .flagsHiOk := by rw [rxClass_flagsHi h hl, if_pos hc]
  have h1 : (s.parser.append b).readBuf 1 = some lo := by
    simp only [ParserRegs.readBuf, hw, ParserRegs.append_wrIdx, ParserRegs.append_buf] at hl ⊢
    rw [Memory.read_write_other _ _ (by omega)]; simpa using hl
  have h2 : (s.parser.append b).readBuf 2 = some b := by
    simp [ParserRegs.readBuf, hw]
  rw [execRxFlagsHiOkBy, inClass_eq hcl, appendThen_eq (by rw [hw]; decide), readThen_eq (v := lo) h1,
    readThen_eq (v := b) h2]
  rfl

theorem execRxFlagsHiBad_eq {b lo : Byte} {s : State} (h : s.parser.ps = .gotFlagsLow) (hw : s.parser.wrIdx = 2)
    (hl : s.parser.readBuf 1 = some lo) (hc : countInRange (flagsCount (le16 lo b)) = false) :
    execRxFlagsHiBadBy ck b s = .next ((s.setParser { s.parser.append b with
      ps := .hunting, rem := 0 }).setFeedOut .incomplete) := by
  have hcl : rxClass s.parser b ck = .ok .flagsHiBad := by rw [rxClass_flagsHi h hl, if_neg (by simp [hc])]
  rw [execRxFlagsHiBadBy, inClass_eq hcl, appendThen_eq (by rw [hw]; decide)]
  rfl

theorem execRxBody_eq {b : Byte} {s : State} (h : s.parser.ps = .accumulating) (hr : 1 < s.parser.rem)
    (hw : s.parser.wrIdx < Config.bufBytes) :
    execRxBodyBy ck b s = .next ((s.setParser { s.parser.append b with rem := s.parser.rem - 1 }).setFeedOut .incomplete) := by
  rw [execRxBodyBy, inClass_eq (rxClass_body h hr b), appendThen_eq hw]; rfl

/-- The bytes after a last byte: the covered bytes, the stored checksum's two bytes. -/
theorem covered_append {p : ParserRegs} {b : Byte} {l : List Byte} (hw : 1 ≤ p.wrIdx)
    (hl : p.readRange 0 (p.wrIdx - 1) = some l) : (p.append b).readRange 0 ((p.append b).wrIdx - 2) = some l := by
  have e : (p.append b).wrIdx - 2 = p.wrIdx - 1 := by rw [ParserRegs.append_wrIdx]; omega
  rw [e]
  unfold ParserRegs.readRange at hl ⊢
  rw [if_pos (by omega)] at hl
  rw [if_pos (by rw [ParserRegs.append_wrIdx]; omega), ParserRegs.append_buf,
    Memory.readSeq_write_above _ _ (by omega), hl]

theorem execRxLastOk_eq {b lo cmd : Byte} {s : State} {l : List Byte} (h : s.parser.ps = .accumulating)
    (hr : s.parser.rem = 1) (hw : s.parser.wrIdx < Config.bufBytes) (hw' : 1 ≤ s.parser.wrIdx)
    (hlo : s.parser.readBuf (s.parser.wrIdx - 1) = some lo) (hl : s.parser.readRange 0 (s.parser.wrIdx - 1) = some l)
    (hck : le16 lo b = checksum l ck) (hcmd : (s.parser.append b).readBuf 3 = some cmd) :
    execRxLastOkBy ck b s = .next (((s.setParser { s.parser.append b with
      ps := .hunting, rem := 0, cmdLatched := cmd, frameOk := true }).setCkAcc (checksum l ck)).setFeedOut .frameReady) := by
  have hcl : rxClass s.parser b ck = .ok .lastOk := by rw [rxClass_last h hr hlo hl, if_pos hck]
  rw [execRxLastOkBy, inClass_eq hcl, appendThen_eq hw, verifyThen_eq (l := l) (covered_append hw' hl),
    readThen_eq (v := cmd) hcmd]
  rfl

theorem execRxLastBad_eq {b lo : Byte} {s : State} {l : List Byte} (h : s.parser.ps = .accumulating)
    (hr : s.parser.rem = 1) (hw : s.parser.wrIdx < Config.bufBytes) (hw' : 1 ≤ s.parser.wrIdx)
    (hlo : s.parser.readBuf (s.parser.wrIdx - 1) = some lo) (hl : s.parser.readRange 0 (s.parser.wrIdx - 1) = some l)
    (hck : le16 lo b ≠ checksum l ck) :
    execRxLastBadBy ck b s = .next (((s.setParser { s.parser.append b with
      ps := .hunting, rem := 0 }).setCkAcc (checksum l ck)).setFeedOut .incomplete) := by
  have hcl : rxClass s.parser b ck = .ok .lastBad := by rw [rxClass_last h hr hlo hl, if_neg hck]
  rw [execRxLastBadBy, inClass_eq hcl, appendThen_eq hw, verifyThen_eq (l := l) (covered_append hw' hl)]
  rfl

end Sys2Proof.Machine
end

