-- ==== Sys2Proof/Laws/Feed.lean ====
section
/-! SUPPORT. Once and for all: what a byte taken by the parser can do (`feedByte_cases`), what it leaves alone
(`feedByte_frame`), and that it keeps the parser invariants and always answers a next state (`feedByte_keeps`). -/

namespace Sys2Proof.Machine

open Sys2Proof

/-- `t` differs from `s` at most in the parser registers, `ck_acc` and `feedOut`. -/
def SameButParser (s t : State) : Prop :=
  t.req = s.req ∧ t.attempt = s.attempt ∧ t.reader = s.reader ∧ t.cs = s.cs ∧ t.status = s.status ∧ t.env = s.env ∧
    t.host = s.host ∧ t.result = s.result

theorem SameButParser.refl (s : State) : SameButParser s s := ⟨rfl, rfl, rfl, rfl, rfl, rfl, rfl, rfl⟩

theorem SameButParser.trans {s t u : State} (h : SameButParser s t) (h' : SameButParser t u) : SameButParser s u := by
  obtain ⟨a1, a2, a3, a4, a5, a6, a7, a8⟩ := h
  obtain ⟨b1, b2, b3, b4, b5, b6, b7, b8⟩ := h'
  exact ⟨b1.trans a1, b2.trans a2, b3.trans a3, b4.trans a4, b5.trans a5, b6.trans a6, b7.trans a7, b8.trans a8⟩

variable {ck : Config.CkStep}

/-- Everything a byte can do to a parser that meets the invariants and holds the bytes `l`: the row's condition and the
whole next state, row by row (R151 to R158). -/
inductive FeedCase (ck : Config.CkStep) (b : Byte) (s : State) (l : List Byte) : RxClass → State → Prop
  | noise (h : s.parser.ps = .hunting) (hb : b ≠ Config.marker) :
      FeedCase ck b s l .noise (s.setFeedOut .incomplete)
  | marker (h : s.parser.ps = .hunting) (hb : b = Config.marker) :
      FeedCase ck b s l .marker ((s.setParser { s.parser with
        ps := .gotMarker, buf := s.parser.buf.write 0 Config.marker, wrIdx := 1, frameOk := false }).setFeedOut .incomplete)
  | flagsLo (h : s.parser.ps = .gotMarker) (hl : l = [Config.marker]) :
      FeedCase ck b s l .flagsLo ((s.setParser { s.parser.append b with ps := .gotFlagsLow }).setFeedOut .incomplete)
  | flagsHiOk (lo : Byte) (h : s.parser.ps = .gotFlagsLow) (hl : l = [Config.marker, lo])
      (hc : countInRange (flagsCount (le16 lo b)) = true) :
      FeedCase ck b s l .flagsHiOk ((s.setParser { s.parser.append b with
        ps := .accumulating, rem := flagsCount (le16 lo b) }).setFeedOut .incomplete)
  | flagsHiBad (lo : Byte) (h : s.parser.ps = .gotFlagsLow) (hl : l = [Config.marker, lo])
      (hc : countInRange (flagsCount (le16 lo b)) = false) :
      FeedCase ck b s l .flagsHiBad ((s.setParser { s.parser.append b with
        ps := .hunting, rem := 0 }).setFeedOut .incomplete)
  | body (h : s.parser.ps = .accumulating) (hr : 1 < s.parser.rem) :
      FeedCase ck b s l .body ((s.setParser { s.parser.append b with rem := s.parser.rem - 1 }).setFeedOut .incomplete)
  | lastOk (m lo hi cmd : Byte) (mid : List Byte) (c0 : Byte) (h : s.parser.ps = .accumulating)
      (hr : s.parser.rem = 1) (hl : l = [m, lo, hi, cmd] ++ mid ++ [c0])
      (hck : le16 c0 b = checksum ([m, lo, hi, cmd] ++ mid) ck) :
      FeedCase ck b s l .lastOk (((s.setParser { s.parser.append b with
        ps := .hunting, rem := 0, cmdLatched := cmd, frameOk := true }).setCkAcc
          (checksum ([m, lo, hi, cmd] ++ mid) ck)).setFeedOut .frameReady)
  | lastBad (m lo hi cmd : Byte) (mid : List Byte) (c0 : Byte) (h : s.parser.ps = .accumulating)
      (hr : s.parser.rem = 1) (hl : l = [m, lo, hi, cmd] ++ mid ++ [c0])
      (hck : le16 c0 b ≠ checksum ([m, lo, hi, cmd] ++ mid) ck) :
      FeedCase ck b s l .lastBad (((s.setParser { s.parser.append b with
        ps := .hunting, rem := 0 }).setCkAcc (checksum ([m, lo, hi, cmd] ++ mid) ck)).setFeedOut .incomplete)

/-- In `ACCUMULATING` the buffer holds the header and `wr_idx = 3 + count - rem` bytes. -/
theorem accumulating_held {p : ParserRegs} (h : p.Inv ck) (hp : p.ps = .accumulating) :
    ∃ lo hi rest, p.held = some (Config.marker :: lo :: hi :: rest) ∧ p.wrIdx = rest.length + 3 ∧
      countInRange (flagsCount (le16 lo hi)) = true ∧ p.wrIdx + p.rem = 3 + flagsCount (le16 lo hi) := by
  obtain ⟨l, hl, hlen⟩ := h.held
  obtain ⟨⟨h3, -⟩, -, ⟨n, hn, ⟨h3n, hn'⟩, hsum⟩, h0, -⟩ := ParserRegs.phaseInv_accumulating h.2.1 hp
  rcases l with _ | ⟨m, _ | ⟨lo, _ | ⟨hi, rest⟩⟩⟩
  · simp at hlen; omega
  · simp at hlen; omega
  · simp at hlen; omega
  · rw [ParserRegs.readBuf_of_held hl] at h0
    have h16 : p.read16 1 = some (le16 lo hi) := ParserRegs.read16_of_held hl rfl rfl
    have hc : n = flagsCount (le16 lo hi) := by
      rw [ParserRegs.count, ParserRegs.flagsRaw, h16] at hn
      simpa using hn.symm
    subst hc
    refine ⟨lo, hi, rest, ?_, by simp at hlen; omega, by rw [countInRange_iff]; exact ⟨h3n, hn'⟩, hsum⟩
    have : m = Config.marker := by simpa using h0
    rw [← this]; exact hl

/-- The last byte of a frame: the buffer holds header, command, payload and the first checksum byte. -/
theorem last_held {p : ParserRegs} (h : p.Inv ck) (hp : p.ps = .accumulating) (hr : p.rem = 1) :
    ∃ lo hi cmd mid c0, p.held = some ([Config.marker, lo, hi, cmd] ++ mid ++ [c0]) ∧
      p.wrIdx = mid.length + 5 ∧ countInRange (flagsCount (le16 lo hi)) = true ∧
      flagsCount (le16 lo hi) = mid.length + 3 := by
  obtain ⟨lo, hi, rest, hl, hw, hc, hsum⟩ := accumulating_held h hp
  have h3 := (countInRange_iff _).mp hc
  cases rest with
  | nil => simp at hw; omega
  | cons cmd rest =>
    rcases List.eq_nil_or_concat rest with rfl | ⟨mid, c0, rfl⟩
    · simp at hw; omega
    · refine ⟨lo, hi, cmd, mid, c0, by simpa using hl, ?_, hc, ?_⟩ <;> simp at hw <;> omega

/-- The class of every byte, with what it does. -/
theorem feedByte_cases {s : State} (h : s.parser.Inv ck) (b : Byte) :
    ∃ l cl t, s.parser.held = some l ∧ rxClass s.parser b ck = .ok cl ∧ feedByte b s ck = .next t ∧ FeedCase ck b s l cl t := by
  obtain ⟨l, hl, hlen⟩ := h.held
  have hph := h.2.1
  cases hp : s.parser.ps with
  | hunting =>
    by_cases hb : b = Config.marker
    · have hc := rxClass_marker (ck := ck) hp
      rw [← hb] at hc
      exact ⟨l, _, _, hl, hc, (feedByte_eq_execBy hc).trans (execRxMarker_eq hp), .marker hp hb⟩
    · have hc := rxClass_noise (ck := ck) hp hb
      exact ⟨l, _, _, hl, hc, (feedByte_eq_execBy hc).trans (execRxNoise_eq ⟨hp, hb⟩), .noise hp hb⟩
  | gotMarker =>
    obtain ⟨hw, h0, -, -⟩ := ParserRegs.phaseInv_gotMarker hph hp
    have hc := rxClass_flagsLo (ck := ck) hp b
    have hl1 : l = [Config.marker] := by
      rw [hw] at hlen
      obtain ⟨m, rfl⟩ := List.length_eq_one_iff.mp hlen
      rw [ParserRegs.readBuf_of_held hl] at h0
      simpa using h0
    exact ⟨l, _, _, hl, hc, (feedByte_eq_execBy hc).trans (execRxFlagsLo_eq hp (by rw [hw]; decide)), .flagsLo hp hl1⟩
  | gotFlagsLow =>
    obtain ⟨hw, h0, -, -⟩ := ParserRegs.phaseInv_gotFlagsLow hph hp
    rw [hw] at hlen
    obtain ⟨m, lo, rfl⟩ := List.length_eq_two.mp hlen
    rw [ParserRegs.readBuf_of_held hl] at h0
    obtain rfl : m = Config.marker := by simpa using h0
    have h1 : s.parser.readBuf 1 = some lo := by rw [ParserRegs.readBuf_of_held hl]; rfl
    have hc := rxClass_flagsHi (ck := ck) hp h1 b
    by_cases hr : countInRange (flagsCount (le16 lo b)) = true
    · rw [if_pos hr] at hc
      exact ⟨_, _, _, hl, hc, (feedByte_eq_execBy hc).trans (execRxFlagsHiOk_eq hp hw h1 hr), .flagsHiOk lo hp rfl hr⟩
    · rw [if_neg hr] at hc
      rw [Bool.not_eq_true] at hr
      exact ⟨_, _, _, hl, hc, (feedByte_eq_execBy hc).trans (execRxFlagsHiBad_eq hp hw h1 hr), .flagsHiBad lo hp rfl hr⟩
  | accumulating =>
    obtain ⟨⟨-, hw⟩, ⟨hr1, -⟩, -⟩ := ParserRegs.phaseInv_accumulating hph hp
    have hw' : s.parser.wrIdx < Config.bufBytes := Nat.lt_of_le_of_lt hw (by decide)
    rcases Nat.lt_or_ge 1 s.parser.rem with hr | hr
    · have hc := rxClass_body (ck := ck) hp hr b
      exact ⟨l, _, _, hl, hc, (feedByte_eq_execBy hc).trans (execRxBody_eq hp hr hw'), .body hp hr⟩
    · have hr : s.parser.rem = 1 := by omega
      obtain ⟨lo, hi, cmd, mid, c0, hl', hw5, -, -⟩ := last_held h hp hr
      have hll : l = [Config.marker, lo, hi, cmd] ++ mid ++ [c0] := by rw [hl] at hl'; exact Option.some.inj hl'
      have hck : s.parser.readBuf (s.parser.wrIdx - 1) = some c0 := by
        rw [ParserRegs.readBuf_of_held hl', List.getElem?_append_right (by simp; omega)]
        simp [hw5]
      have hrange : s.parser.readRange 0 (s.parser.wrIdx - 1) = some ([Config.marker, lo, hi, cmd] ++ mid) := by
        rw [ParserRegs.readRange_of_held hl' (Nat.zero_le _) (by omega), List.drop_zero]
        congr 1
        exact List.take_left' (by simp [hw5])
      have hcmd : (s.parser.append b).readBuf 3 = some cmd := by
        rw [ParserRegs.readBuf_of_held (ParserRegs.held_append hl' b)]; simp
      have hc := rxClass_last (ck := ck) hp hr hck hrange b
      by_cases he : le16 c0 b = checksum ([Config.marker, lo, hi, cmd] ++ mid) ck
      · rw [if_pos he] at hc
        exact ⟨l, _, _, hl, hc, (feedByte_eq_execBy hc).trans
          (execRxLastOk_eq hp hr hw' (by omega) hck hrange he hcmd), .lastOk _ lo hi cmd mid c0 hp hr hll he⟩
      · rw [if_neg he] at hc
        exact ⟨l, _, _, hl, hc, (feedByte_eq_execBy hc).trans
          (execRxLastBad_eq hp hr hw' (by omega) hck hrange he), .lastBad _ lo hi cmd mid c0 hp hr hll he⟩

/-- A byte changes the parser registers, `ck_acc` and `feedOut` only. -/
theorem FeedCase.frame {b : Byte} {s : State} {l : List Byte} {cl : RxClass} {t : State} (h : FeedCase ck b s l cl t) :
    SameButParser s t := by
  cases h <;> exact ⟨rfl, rfl, rfl, rfl, rfl, rfl, rfl, rfl⟩

/-- The invariants of a parser that holds a list of bytes, said of the list. -/
theorem ParserRegs.bufInv_of_held {p : ParserRegs} {l : List Byte} (h1 : p.buf.wf) (h2 : p.buf.within Config.bufBytes)
    (h3 : p.wrIdx ≤ Config.bufBytes) (h4 : p.held = some l) : p.bufInv :=
  ⟨h1, h2, h3, Option.isSome_iff_exists.mpr ⟨l, h4⟩⟩

/-- A byte taken keeps the parser invariants (R42). -/
theorem FeedCase.inv {b : Byte} {s : State} {l : List Byte} {cl : RxClass} {t : State} (hi : s.parser.Inv ck)
    (hl : s.parser.held = some l) (h : FeedCase ck b s l cl t) : t.parser.Inv ck := by
  obtain ⟨hbuf, hph, hla⟩ := hi
  have hlen := ParserRegs.held_length hl
  have happ := ParserRegs.held_append hl b
  cases h with
  | noise hp hb => exact ⟨hbuf, hph, hla⟩
  | marker hp hb =>
    have hh : ((s.parser.clear).append Config.marker).held = some [Config.marker] :=
      ParserRegs.held_append (ParserRegs.held_clear _) _
    refine ⟨ParserRegs.bufInv_congr (q := (s.parser.clear).append Config.marker) rfl rfl
      (ParserRegs.bufInv_append (ParserRegs.bufInv_clear hbuf) (Nat.zero_lt_succ _) _), ?_, fun hf => by simp at hf⟩
    exact ParserRegs.phaseInv_of_gotMarker rfl
      ⟨rfl, (ParserRegs.readBuf_of_held (p := (s.parser.clear).append Config.marker) hh 0), rfl, hph.1 hp⟩
  | flagsLo hp hl1 =>
    obtain ⟨hw, h0, hf, hr⟩ := ParserRegs.phaseInv_gotMarker hph hp
    refine ⟨ParserRegs.bufInv_congr (q := s.parser.append b) rfl rfl
      (ParserRegs.bufInv_append hbuf (by rw [hw]; decide) b), ?_, fun h => ?_⟩
    · exact ParserRegs.phaseInv_of_gotFlagsLow rfl ⟨by simp [hw], (ParserRegs.readBuf_of_held (p := s.parser.append b) happ 0).trans (by simp [hl1]), hf, hr⟩
    · exact absurd (show s.parser.frameOk = true from h) (by simp [hf])
  | flagsHiOk lo hp hl2 hc =>
    obtain ⟨hw, h0, hf, hr⟩ := ParserRegs.phaseInv_gotFlagsLow hph hp
    have hc' := (countInRange_iff _).mp hc
    subst hl2
    have h16 : (s.parser.append b).read16 1 = some (le16 lo b) := ParserRegs.read16_of_held happ rfl rfl
    refine ⟨ParserRegs.bufInv_congr (q := s.parser.append b) rfl rfl
      (ParserRegs.bufInv_append hbuf (by rw [hw]; decide) b), ?_, fun h => ?_⟩
    · refine ParserRegs.phaseInv_of_accumulating (n := flagsCount (le16 lo b)) rfl (by simp [hw]) (by simp; omega) ?_ hc'
        (by simp; omega) ((ParserRegs.readBuf_of_held (p := s.parser.append b) happ 0).trans rfl) hf
      show ((s.parser.append b).read16 1).map flagsCount = _
      rw [h16]; rfl
    · exact absurd (show s.parser.frameOk = true from h) (by simp [hf])
  | flagsHiBad lo hp hl2 hc =>
    obtain ⟨hw, h0, hf, hr⟩ := ParserRegs.phaseInv_gotFlagsLow hph hp
    refine ⟨ParserRegs.bufInv_congr (q := s.parser.append b) rfl rfl
      (ParserRegs.bufInv_append hbuf (by rw [hw]; decide) b),
      ParserRegs.phaseInv_of_hunting rfl rfl, fun h => ?_⟩
    exact absurd (show s.parser.frameOk = true from h) (by simp [hf])
  | body hp hr =>
    obtain ⟨⟨h3, hw⟩, ⟨hr1, hr2⟩, -, h0, hf⟩ := ParserRegs.phaseInv_accumulating hph hp
    have hw' : s.parser.wrIdx < Config.bufBytes := Nat.lt_of_le_of_lt hw (by decide)
    obtain ⟨lo, hi, rest, hl', hw3, hc, hsum'⟩ := accumulating_held ⟨hbuf, hph, hla⟩ hp
    have hll : l = Config.marker :: lo :: hi :: rest := by rw [hl] at hl'; exact Option.some.inj hl'
    have h16 : (s.parser.append b).read16 1 = some (le16 lo hi) :=
      ParserRegs.read16_of_held happ (by simp [hll]) (by simp [hll])
    have hc' := (countInRange_iff _).mp hc
    refine ⟨ParserRegs.bufInv_congr (q := s.parser.append b) rfl rfl (ParserRegs.bufInv_append hbuf hw' b), ?_,
      fun h => absurd (show s.parser.frameOk = true from h) (by simp [hf])⟩
    refine ParserRegs.phaseInv_of_accumulating (n := flagsCount (le16 lo hi)) hp ⟨?_, ?_⟩ ⟨?_, ?_⟩ ?_ hc' ?_
      ((ParserRegs.readBuf_of_held (p := s.parser.append b) happ 0).trans (by simp [hll])) hf
    · show 3 ≤ s.parser.wrIdx + 1; omega
    · show s.parser.wrIdx + 1 ≤ 1021; omega
    · show 1 ≤ s.parser.rem - 1; omega
    · show s.parser.rem - 1 ≤ 1019; omega
    · show ((s.parser.append b).read16 1).map flagsCount = _
      rw [h16]; rfl
    · show s.parser.wrIdx + 1 + (s.parser.rem - 1) = 3 + _; omega
  | lastOk m lo hi cmd mid c0 hp hr hll hck =>
    obtain ⟨⟨h3, hw⟩, -⟩ := ParserRegs.phaseInv_accumulating hph hp
    have hw' : s.parser.wrIdx < Config.bufBytes := Nat.lt_of_le_of_lt hw (by decide)
    obtain ⟨lo', hi', rest, hl', hw3, hc, hsum⟩ := accumulating_held ⟨hbuf, hph, hla⟩ hp
    have hll' : l = Config.marker :: lo' :: hi' :: rest := by rw [hl] at hl'; exact Option.some.inj hl'
    have heq := hll.symm.trans hll'
    simp only [List.cons_append, List.nil_append, List.cons.injEq] at heq
    obtain ⟨rfl, rfl, rfl, hrest⟩ := heq
    have h16 : (s.parser.append b).read16 1 = some (le16 lo hi) :=
      ParserRegs.read16_of_held happ (by simp [hll]) (by simp [hll])
    have hlen' : s.parser.wrIdx = mid.length + 5 := by rw [← hlen, hll]; simp
    refine ⟨ParserRegs.bufInv_congr (q := s.parser.append b) rfl rfl (ParserRegs.bufInv_append hbuf hw' b),
      ParserRegs.phaseInv_of_hunting rfl rfl, fun _ => ?_⟩
    refine ⟨rfl, ⟨?_, ?_⟩, ⟨flagsCount (le16 lo hi), ?_, ?_⟩, ?_, ?_, checksum ([Config.marker, lo, hi, cmd] ++ mid) ck, ?_, ?_⟩
    · show 6 ≤ s.parser.wrIdx + 1; omega
    · show s.parser.wrIdx + 1 ≤ 1022; omega
    · show ((s.parser.append b).read16 1).map flagsCount = _
      rw [h16]; rfl
    · show s.parser.wrIdx + 1 = 3 + _; omega
    · exact (ParserRegs.readBuf_of_held (p := s.parser.append b) happ 0).trans (by simp [hll])
    · exact (ParserRegs.readBuf_of_held (p := s.parser.append b) happ 3).trans (by simp [hll])
    · show (s.parser.append b).read16 ((s.parser.append b).wrIdx - 2) = _
      rw [← hck]
      apply ParserRegs.read16_of_held happ
      · rw [ParserRegs.append_wrIdx, hlen', hll]; simp
      · rw [ParserRegs.append_wrIdx, hlen', hll]; simp
    · show ((s.parser.append b).readRange 0 ((s.parser.append b).wrIdx - 2)).map (fun l => checksum l ck) = _
      rw [ParserRegs.readRange_of_held happ (Nat.zero_le _) (Nat.sub_le _ _)]
      simp [hll, hlen']
  | lastBad m lo hi cmd mid c0 hp hr hll hck =>
    obtain ⟨⟨h3, hw⟩, -, -, -, hf⟩ := ParserRegs.phaseInv_accumulating hph hp
    have hw' : s.parser.wrIdx < Config.bufBytes := Nat.lt_of_le_of_lt hw (by decide)
    refine ⟨ParserRegs.bufInv_congr (q := s.parser.append b) rfl rfl (ParserRegs.bufInv_append hbuf hw' b),
      ParserRegs.phaseInv_of_hunting rfl rfl, fun h => ?_⟩
    exact absurd (show s.parser.frameOk = true from h) (by simp [hf])

/-- `FEED` in a state that meets the parser invariants: it answers a next state, which meets them, and changes nothing
but the parser, `ck_acc` and `feedOut` (R150 "`FEED` is total"). -/
theorem feedByte_keeps {s : State} (h : s.parser.Inv ck) (b : Byte) :
    ∃ t, feedByte b s ck = .next t ∧ t.parser.Inv ck ∧ SameButParser s t := by
  obtain ⟨l, cl, t, hl, -, ht, hc⟩ := feedByte_cases h b
  exact ⟨t, ht, hc.inv h hl, hc.frame⟩

end Sys2Proof.Machine
end

