-- ==== Sys2Proof/Laws/Exec.lean ====
section
/-! SUPPORT. What each shared operation can do, said once, without the invariants: the inversion lemmas of the appending
and reading operations, and from them what a received byte (`feedByte_same`) and a whole frame
(`feedAll_same`) leave alone; what the steps of the reader and the correlator can do. -/

namespace Sys2Proof.Machine

open Sys2Proof

/-! ### Inversion of the shared operations -/

variable {ck : Config.CkStep}

theorem appendThen_next {b : Byte} {s t : State} {k : State → Out} (h : appendThen b s k = .next t) :
    s.parser.wrIdx < Config.bufBytes ∧ k (s.setParser (s.parser.append b)) = .next t := by
  unfold appendThen at h
  split at h
  · exact ⟨‹_›, h⟩
  · cases h

theorem readThen_next {i : Nat} {s t : State} {k : Byte → Out} (h : readThen i s k = .next t) :
    ∃ v, s.parser.readBuf i = some v ∧ k v = .next t := by
  unfold readThen at h
  split at h
  · exact ⟨_, ‹_›, h⟩
  · cases h

theorem verifyThen_next {s t : State} {k : State → Out} (h : verifyThen ck s k = .next t) :
    ∃ v, s.parser.ckCovered ck = some v ∧ k (s.setCkAcc v) = .next t := by
  unfold verifyThen at h
  split at h
  · exact ⟨_, ‹_›, h⟩
  · cases h

theorem incomplete_next {s t : State} (h : incomplete s = .next t) : t = s.setFeedOut .incomplete := by
  cases h; rfl

/-! ### What a received byte leaves alone, whatever state it finds -/

/-- The instruction of a class changes nothing but the parser registers, `ck_acc` and `feedOut`, and clears `frame_ok`
only at a marker. -/
theorem execBy_rx_same {cl : RxClass} {b : Byte} {s t : State} (h : execBy ck (cl.instr b) s = .next t) :
    SameButParser s t ∧ (s.parser.frameOk = true → t.parser.frameOk = true ∨ cl = .marker) := by
  cases cl with
  | noise =>
    cases incomplete_next (inClass_next h).2
    exact ⟨.refl _, .inl⟩
  | marker =>
    cases incomplete_next (appendThen_next (inClass_next h).2).2
    exact ⟨.refl _, fun _ => .inr rfl⟩
  | flagsLo =>
    cases incomplete_next (appendThen_next (inClass_next h).2).2
    exact ⟨.refl _, .inl⟩
  | flagsHiOk =>
    obtain ⟨lo, -, h⟩ := readThen_next (appendThen_next (inClass_next h).2).2
    obtain ⟨hi, -, h⟩ := readThen_next h
    cases incomplete_next h
    exact ⟨.refl _, .inl⟩
  | flagsHiBad =>
    cases incomplete_next (appendThen_next (inClass_next h).2).2
    exact ⟨.refl _, .inl⟩
  | body =>
    cases incomplete_next (appendThen_next (inClass_next h).2).2
    exact ⟨.refl _, .inl⟩
  | lastOk =>
    obtain ⟨v, -, h⟩ := verifyThen_next (appendThen_next (inClass_next h).2).2
    obtain ⟨cmd, -, h⟩ := readThen_next h
    cases h
    exact ⟨.refl _, fun _ => .inl rfl⟩
  | lastBad =>
    obtain ⟨v, -, h⟩ := verifyThen_next (appendThen_next (inClass_next h).2).2
    cases incomplete_next h
    exact ⟨.refl _, .inl⟩

theorem exec_rx_same {cl : RxClass} {b : Byte} {s t : State} (h : exec (cl.instr b) s = .next t) :
    SameButParser s t ∧ (s.parser.frameOk = true → t.parser.frameOk = true ∨ cl = .marker) :=
  execBy_rx_same ((execBy_default _ _).trans h)

/-- A byte the parser takes is of some class, and is taken by that class's instruction. -/
theorem feedByte_next {b : Byte} {s t : State} (h : feedByte b s ck = .next t) :
    ∃ cl, rxClass s.parser b ck = .ok cl ∧ execBy ck (cl.instr b) s = .next t := by
  cases hc : rxClass s.parser b ck with
  | ok cl => exact ⟨cl, rfl, feedByte_eq_execBy hc ▸ h⟩
  | error e => rw [feedByte, hc] at h; cases h

/-- The frame of a received byte. -/
theorem feedByte_same {b : Byte} {s t : State} (h : feedByte b s ck = .next t) :
    SameButParser s t ∧ (s.parser.frameOk = true → t.parser.frameOk = true ∨ b = Config.marker) := by
  obtain ⟨cl, hc, he⟩ := feedByte_next h
  obtain ⟨h1, h2⟩ := execBy_rx_same he
  refine ⟨h1, fun hf => (h2 hf).imp_right fun hm => ?_⟩
  subst hm
  exact (rowHolds_of_rxClass hc).2

/-! ### Whole frames -/

/-- A whole frame fed: only the parser registers, `ck_acc`, `feedOut` and the result change. -/
theorem feedAll_same {l : List Byte} {i : Nat} {seen : List Nat} {s t : State} (h : feedAll l i seen s ck = .next t) :
    ∃ u positions, SameButParser s u ∧ t = deliver u (.readyAt positions) := by
  induction l generalizing i seen s with
  | nil => cases h; exact ⟨s, seen, .refl s, rfl⟩
  | cons b l ih =>
    obtain ⟨s1, h1, h2⟩ := afterFeed_next h
    obtain ⟨u, ps, hu, ht⟩ := ih h2
    exact ⟨u, ps, (feedByte_same h1).1.trans hu, ht⟩

/-- A whole frame fed to a parser that meets the invariants: it always completes, and the invariants hold again. -/
theorem feedAll_keeps {s : State} (h : s.parser.Inv ck) (l : List Byte) (i : Nat) (seen : List Nat) :
    ∃ t, feedAll l i seen s ck = .next t ∧ t.parser.Inv ck := by
  induction l generalizing s i seen with
  | nil => exact ⟨_, rfl, h⟩
  | cons b l ih =>
    obtain ⟨s1, h1, hi, -⟩ := feedByte_keeps h b
    obtain ⟨t, ht, hti⟩ := ih hi (i + 1) (notePosition i seen s1)
    exact ⟨t, by rw [feedAll, h1]; exact ht, hti⟩

/-! ### The reader's shared operations -/

/-- The start of a wait, field by field. -/
theorem beginWait_fields (who : Waiter) (e : Byte) (timeout : Time) (s : State) :
    let t := beginWait who e timeout s
    t.parser = s.parser ∧ t.ckAcc = s.ckAcc ∧ t.req = s.req ∧ t.attempt = s.attempt ∧ t.cs = .wait who ∧
      t.status = s.status ∧ t.host = s.host ∧ t.feedOut = s.feedOut ∧ t.result = s.result ∧ t.env.tx = s.env.tx ∧
      t.env.polls = s.env.polls ∧ t.env.pollCount = s.env.pollCount ∧ s.env.time ≤ t.env.time ∧
      t.reader.expect = e ∧ t.reader.toVal = timeout ∧ t.reader.wmode = decide (0 < timeout) := by
  by_cases h : 0 < timeout
  · simp only [beginWait, if_pos h]
    refine ⟨rfl, rfl, rfl, rfl, rfl, rfl, rfl, rfl, rfl, ?_, ?_, ?_, ?_, rfl, rfl, by simp [h]⟩ <;>
      cases hk : s.env.ticks <;> simp [Env.now, hk]
  · simp only [beginWait, if_neg h]
    exact ⟨rfl, rfl, rfl, rfl, rfl, rfl, rfl, rfl, rfl, rfl, rfl, rfl, Nat.le_refl _, rfl, rfl, by simp [h]⟩

/-- The end of an attempt or of a host wait with no frame, field by field. -/
theorem waitNone_fields (who : Waiter) (s : State) :
    let t := waitNone who s
    t.parser = s.parser ∧ t.ckAcc = s.ckAcc ∧ t.req = s.req ∧ t.attempt = s.attempt ∧ t.reader = s.reader ∧
      t.env = s.env ∧ t.host = s.host ∧ t.feedOut = s.feedOut ∧ t.status = .noFrame ∧
      (who = .host → t.cs = .idle ∧ t.result = some (.waited none)) ∧
      (∀ timeout, who = .transact timeout → t.cs = .send timeout ∧ t.result = s.result) := by
  cases who <;> simp [waitNone, finish]

/-- An empty poll ends the wait or only moves the clock. -/
theorem emptyPoll_cases (who : Waiter) (s : State) :
    (∃ e, emptyPoll who s = s.setEnv e ∧ e.tx = s.env.tx ∧ e.polls = s.env.polls ∧ s.env.time ≤ e.time) ∨
    ∃ e, emptyPoll who s = waitNone who (s.setEnv e) ∧ e.tx = s.env.tx ∧ e.polls = s.env.polls ∧
      s.env.time ≤ e.time := by
  have hn : s.env.now.2.tx = s.env.tx ∧ s.env.now.2.polls = s.env.polls ∧ s.env.time ≤ s.env.now.2.time := by
    cases hk : s.env.ticks <;> simp [Env.now, hk]
  unfold emptyPoll
  split
  · dsimp only
    split
    · exact .inr ⟨_, rfl, hn⟩
    · exact .inl ⟨_, rfl, hn⟩
  · exact .inr ⟨s.env, rfl, rfl, rfl, Nat.le_refl _⟩

/-- What a matching frame is to the host: the frame of a `WAIT_FRAME`, the payload of a `TRANSACT`. -/
def matchedResult (f : Frame) : Waiter → OpResult
  | .host => .waited (some f)
  | .transact _ => .payload f.payload

/-- A matching frame ends the wait with that frame. -/
theorem waitMatched_next {who : Waiter} {s t : State} (h : waitMatched who s = .next t) :
    ∃ f, latchedFrame s.parser = .ok f ∧ t = finish s .ok (matchedResult f who) := by
  unfold waitMatched at h
  split at h
  · cases h
  · rename_i f hf
    cases who <;> cases h <;> exact ⟨f, hf, rfl⟩

/-- What a step of a wait can do: end or go on at an empty poll, or take a byte and then end or go on. -/
theorem waitStep_next {who : Waiter} {s t : State} (h : waitStep who s ck = .next t) :
    (s.env.rxPoll.1 = none ∧ t = emptyPoll who (s.setEnv s.env.rxPoll.2)) ∨
    ∃ b u, s.env.rxPoll.1 = some b ∧ feedByte b (s.setEnv s.env.rxPoll.2) ck = .next u ∧
      ((matched u = true ∧ waitMatched who u = .next t) ∨ (matched u = false ∧ t = u)) := by
  unfold waitStep at h
  dsimp only at h
  split at h
  · rename_i b hb
    obtain ⟨u, hu, h⟩ := afterFeed_next h
    refine .inr ⟨b, u, hb, hu, ?_⟩
    split at h
    · exact .inl ⟨‹_›, h⟩
    · cases h; rename_i hm; exact .inr ⟨Bool.not_eq_true _ ▸ hm, rfl⟩
  · rename_i hb
    cases h
    exact .inl ⟨hb, rfl⟩

/-- What the start of an attempt can do. -/
theorem sendStep_next {timeout : Time} {s t : State} (h : sendStep timeout s = .next t) :
    (s.attempt < Config.retryBudget ∧ ∃ bytes, s.req.sequence = some bytes ∧
      t = beginWait (.transact timeout) s.req.cmd timeout
        ((resetParser (s.setEnv (s.env.txWrite bytes))).setAttempt (s.attempt + 1))) ∨
    (Config.retryBudget ≤ s.attempt ∧ t = raise s .timeout) := by
  unfold sendStep at h
  split at h
  · rename_i ha
    split at h
    · rename_i bytes hb
      cases h
      exact .inl ⟨ha, bytes, hb, rfl⟩
    · cases h
  · rename_i ha
    cases h
    exact .inr ⟨Nat.le_of_not_lt ha, rfl⟩

/-! ### Runs -/

theorem steps_next {n : Nat} {s t : State} (h : step s = .next t) : steps (n + 1) s = steps n t := by
  rw [steps, h]

theorem steps_add {n m : Nat} {s t : State} (h : steps n s = .next t) : steps (n + m) s = steps m t := by
  induction n generalizing s with
  | zero => cases h; rw [Nat.zero_add]
  | succ n ih =>
    rw [steps] at h
    rw [Nat.succ_add, steps]
    cases hs : step s with
    | next u => rw [hs] at h; exact ih h
    | fault r => rw [hs] at h; cases h
    | refused r => rw [hs] at h; cases h

end Sys2Proof.Machine
end

