-- ==== Sys2Proof/Laws/PerInstr.lean ====
section
/-! SUPPORT. The family `FixedBits`: the words an instruction is encoded to carry the bits its row of
spec/opcode_table.json fixes. -/

namespace Sys2Proof.Laws.FixedBits

open Sys2Proof Sys2Proof.Machine

/-- The bits of words as spec/opcode_table.json numbers them: a select code, a decode key, or the first four bytes of a
frame, the first byte lowest (R91, R104, R105). -/
def bits : Words → Nat
  | .call (.op r) => r.op.toNat
  | .call (.frame (b0 :: b1 :: b2 :: b3 :: _)) => b0.toNat + 256 * b1.toNat + 65536 * b2.toNat + 16777216 * b3.toNat
  | .call (.frame _) => 0
  | .call (.other _) => 0
  | .key k => k.toNat

/-- A row's fixed bits: the number of low bits left out, the number of bits fixed, their value. -/
structure Row where
  low : Nat
  count : Nat
  value : Nat

/-- The fixed bits of each row. -/
def row : Instr → Row
  | .frameRead _ _ _ _ => ⟨0, 9, 0x0AA⟩
  | .frameWrite _ _ _ _ => ⟨0, 9, 0x1AA⟩
  | .rxNoise _ => ⟨8, 3, 0⟩
  | .rxMarker => ⟨0, 11, 0x0AA⟩
  | .rxFlagsLo _ => ⟨8, 3, 1⟩
  | .rxFlagsHiOk _ => ⟨8, 3, 2⟩
  | .rxFlagsHiBad _ => ⟨8, 3, 2⟩
  | .rxBody _ => ⟨8, 3, 4⟩
  | .rxLastOk _ => ⟨8, 3, 4⟩
  | .rxLastBad _ => ⟨8, 3, 4⟩
  | .parserReset => ⟨0, 3, 0⟩
  | .feed _ => ⟨0, 3, 1⟩
  | .frameGet => ⟨0, 3, 2⟩
  | .checksum _ => ⟨0, 3, 3⟩
  | .encode _ _ _ => ⟨0, 3, 4⟩
  | .reqLoad _ _ => ⟨0, 3, 5⟩
  | .waitFrame _ _ => ⟨0, 3, 6⟩
  | .transact _ => ⟨0, 3, 7⟩

/-- The encoded words of an instruction have its row's fixed bits. -/
def Statement (i : Instr) : Prop :=
  bits (encode i) / 2 ^ (row i).low % 2 ^ (row i).count = (row i).value

theorem key_code (ps : ParserState) (b : Byte) :
    bits (.key (rxKey ps b)) / 2 ^ 8 % 2 ^ 3 = ps.code.toNat := by
  have := b.isLt
  have := ps.code.isLt
  rw [bits, rxKey_toNat]
  omega

theorem frame_low (w : Bool) (cmd : Byte) (r : BitVec 5) (field : BitVec 10) (tail : List Byte) :
    bits (.call (.frame (frameBytes w cmd r field tail))) / 2 ^ 0 % 2 ^ 9 = 0xAA + 256 * w.toNat := by
  have h := mkFlags_toNat w r field
  have hw : w.toNat < 2 := Bool.toNat_lt w
  have hm : (Config.marker : Byte).toNat = 0xAA := rfl
  show (Config.marker.toNat + 256 * (lo8 (mkFlags w r field)).toNat + 65536 * (hi8 (mkFlags w r field)).toNat +
    16777216 * cmd.toNat) / 2 ^ 0 % 2 ^ 9 = _
  rw [lo8_toNat, hi8_toNat, h, hm]
  omega

theorem op_low (op : BitVec 3) (b : Byte) (w : Bool) (bytes : List Byte) (t : Time) :
    bits (opCall op b w bytes t) / 2 ^ 0 % 2 ^ 3 = op.toNat := by
  have := op.isLt
  show op.toNat / 2 ^ 0 % 2 ^ 3 = _
  omega

theorem frameRead (cmd : Byte) (r : BitVec 5) (field : BitVec 10) (tail : List Byte) :
    Statement (.frameRead cmd r field tail) := frame_low false cmd r field tail

theorem frameWrite (cmd : Byte) (r : BitVec 5) (field : BitVec 10) (tail : List Byte) :
    Statement (.frameWrite cmd r field tail) := frame_low true cmd r field tail

theorem rxNoise (b : Byte) : Statement (.rxNoise b) := key_code .hunting b

theorem rxMarker : Statement .rxMarker := by unfold Statement; decide

theorem rxFlagsLo (b : Byte) : Statement (.rxFlagsLo b) := key_code .gotMarker b

theorem rxFlagsHiOk (b : Byte) : Statement (.rxFlagsHiOk b) := key_code .gotFlagsLow b

theorem rxFlagsHiBad (b : Byte) : Statement (.rxFlagsHiBad b) := key_code .gotFlagsLow b

theorem rxBody (b : Byte) : Statement (.rxBody b) := key_code .accumulating b

theorem rxLastOk (b : Byte) : Statement (.rxLastOk b) := key_code .accumulating b

theorem rxLastBad (b : Byte) : Statement (.rxLastBad b) := key_code .accumulating b

theorem parserReset : Statement .parserReset := by unfold Statement; decide

theorem feed (b : Byte) : Statement (.feed b) := op_low _ _ _ _ _

theorem frameGet : Statement .frameGet := by unfold Statement; decide

theorem checksum (bytes : List Byte) : Statement (.checksum bytes) := op_low _ _ _ _ _

theorem encode (cmd : Byte) (w : Bool) (payload : List Byte) : Statement (.encode cmd w payload) := op_low _ _ _ _ _

theorem reqLoad (cmd : Byte) (bytes : List Byte) : Statement (.reqLoad cmd bytes) := op_low _ _ _ _ _

theorem waitFrame (expect : Byte) (timeout : Time) : Statement (.waitFrame expect timeout) := op_low _ _ _ _ _

theorem transact (timeout : Time) : Statement (.transact timeout) := op_low _ _ _ _ _

end Sys2Proof.Laws.FixedBits
end

