-- ==== Sys2Proof/Laws/Run.lean ====
section
/-! SUPPORT. The invariant through the shared operations, and what a run of `FEED` does with the parts of a frame: noise,
header, body, and the whole frame by its shape. -/

namespace Sys2Proof.Machine

open Sys2Proof

/-! ### The invariant -/

variable {ck : Config.CkStep}

theorem inv_of_idle {s : State} (h1 : s.parser.Inv ck) (h2 : s.req.Inv) (h3 : s.attempt ≤ 4) (h : s.cs = .idle) : s.Inv ck :=
  ⟨h1, h2, h3, by simp [State.phaseInv, h]⟩

theorem SameButParser.inv {s u : State} (h : s.Inv ck) (hp : u.parser.Inv ck) (hs : SameButParser s u) : u.Inv ck := by
  obtain ⟨h1, h2, h3, h4⟩ := h
  obtain ⟨a1, a2, a3, a4, a5, a6, a7, a8⟩ := hs
  refine ⟨hp, a1 ▸ h2, a2 ▸ h3, ?_⟩
  simp only [State.phaseInv, a4, a1, a2, a3] at h4 ⊢
  exact h4

theorem feedByte_inv {s u : State} {b : Byte} (h : s.Inv ck) (hf : feedByte b s ck = .next u) : u.Inv ck := by
  obtain ⟨t, ht, hi, hs⟩ := feedByte_keeps h.1 b
  rw [hf] at ht
  cases ht
  exact hs.inv h hi

theorem beginWait_inv {s : State} (h1 : s.parser.Inv ck) (h2 : s.req.Inv) (h3 : s.attempt ≤ 4) (who : Waiter) (e : Byte)
    (timeout : Time)
    (hw : ∀ t, who = .transact t → s.req.valid = true ∧ 1 ≤ s.attempt ∧ e = s.req.cmd ∧ timeout = t) :
    (beginWait who e timeout s).Inv ck := by
  obtain ⟨a1, a2, a3, a4, a5, a6, a7, a8, a9, a10, a11, a12, a13, a14, a15, a16⟩ := beginWait_fields who e timeout s
  refine ⟨a1 ▸ h1, a3 ▸ h2, a4 ▸ h3, ?_⟩
  cases who with
  | host => simp only [State.phaseInv, a5, a16, a15]; simp
  | transact t =>
    obtain ⟨b1, b2, b3, b4⟩ := hw t rfl
    simp only [State.phaseInv, a5, a16, a15, a3, a4, a14]
    simp [b1, b2, b3, b4]

theorem resetParser_inv {s : State} (h : s.parser.Inv ck) : (resetParser s).parser.Inv ck := by
  obtain ⟨a, b, c⟩ := h
  exact ⟨a, ParserRegs.phaseInv_of_hunting rfl rfl, fun hf => ⟨rfl, (c hf).2⟩⟩

theorem waitNone_inv {s : State} {who : Waiter} (h : s.Inv ck) (hw : s.cs = .wait who) : (waitNone who s).Inv ck := by
  cases who with
  | host => exact inv_of_idle h.1 h.2.1 h.2.2.1 rfl
  | transact t =>
    refine ⟨h.1, h.2.1, h.2.2.1, ?_⟩
    have := h.2.2.2
    simp [State.phaseInv, hw] at this
    simp [State.phaseInv, waitNone, this]

/-! ### Runs of `FEED` -/

theorem feedRun_cons {b : Byte} {rest : List Byte} {s t : State} (hs : s.cs = .idle) (h : feedByte b s ck = .next t) :
    feedRun (b :: rest) s ck = (feedRun rest (deliver t (.ready t.feedOut)) ck).map fun x => (t.feedOut :: x.1, x.2) := by
  have he : execBy ck (.feed b) s = .next (deliver t (.ready t.feedOut)) := by
    show whenIdle s _ = _
    rw [whenIdle_idle hs, h]; rfl
  rw [feedRun, he]
  simp only
  cases feedRun rest (deliver t (.ready t.feedOut)) ck <;> rfl

theorem feedRun_append {l l' : List Byte} {s u : State} {rs : List FeedResult} (h : feedRun l s ck = some (rs, u)) :
    feedRun (l ++ l') s ck = (feedRun l' u ck).map fun x => (rs ++ x.1, x.2) := by
  induction l generalizing s rs with
  | nil => cases h; rw [List.nil_append]; cases feedRun l' u ck <;> rfl
  | cons b l ih =>
    rw [List.cons_append, feedRun]
    rw [feedRun] at h
    split at h
    · split at h
      · rename_i h1
        cases h
        rw [ih h1]
        cases feedRun l' u ck <;> rfl
      · cases h
    · cases h
    · cases h

/-- Idle, and the invariant holds: what a run of `FEED` starts from and keeps. -/
def Ready (s : State) (ck : Config.CkStep := Config.ckStep) : Prop := s.Inv ck ∧ s.cs = .idle

theorem Ready.feed {b : Byte} {s t : State} (h : Ready s ck) (hf : feedByte b s ck = .next t) :
    Ready (deliver t (.ready t.feedOut)) ck := by
  have hi : t.Inv ck := feedByte_inv h.1 hf
  exact ⟨hi, (feedByte_same hf).1.2.2.2.1.trans h.2⟩

/-- Bytes other than the marker, in `HUNTING`. -/
theorem feedRun_noise (g : List Byte) : ∀ s : State, Ready s ck → s.parser.ps = .hunting → (∀ b ∈ g, b ≠ Config.marker) →
    ∃ u, feedRun g s ck = some (List.replicate g.length .incomplete, u) ∧ Ready u ck ∧ u.parser.ps = .hunting := by
  induction g with
  | nil => intro s hg hp _; exact ⟨s, rfl, hg, hp⟩
  | cons b g ih =>
    intro s hg hp hb
    have hb0 : b ≠ Config.marker := hb b (List.mem_cons_self ..)
    have hf : feedByte b s ck = _ := (feedByte_eq_execBy (rxClass_noise hp hb0)).trans (execRxNoise_eq ⟨hp, hb0⟩)
    obtain ⟨u, h1, h2, h3⟩ := ih _ (hg.feed hf) hp fun x hx => hb x (List.mem_cons_of_mem _ hx)
    exact ⟨u, by rw [feedRun_cons hg.2 hf, h1]; rfl, h2, h3⟩

/-- Marker and two flags bytes with an accepted length. -/
theorem feedRun_header (lo hi : Byte) {s : State} (hg : Ready s ck) (hp : s.parser.ps = .hunting)
    (hc : countInRange (flagsCount (le16 lo hi)) = true) :
    ∃ u, feedRun [Config.marker, lo, hi] s ck = some (List.replicate 3 .incomplete, u) ∧ Ready u ck ∧
      u.parser.ps = .accumulating ∧ u.parser.rem = flagsCount (le16 lo hi) ∧
      u.parser.held = some [Config.marker, lo, hi] := by
  have hf1 : feedByte Config.marker s ck = _ := (feedByte_eq_execBy (rxClass_marker hp)).trans (execRxMarker_eq hp)
  have hg1 := hg.feed hf1
  generalize hs1 : deliver _ _ = s1 at hg1
  have hh1 : s1.parser.held = some [Config.marker] := by
    rw [← hs1]; exact ParserRegs.held_append (ParserRegs.held_clear s.parser) Config.marker
  have hp1 : s1.parser.ps = .gotMarker := by rw [← hs1]; rfl
  have hw1 : s1.parser.wrIdx = 1 := by rw [← hs1]; rfl
  have hf2 : feedByte lo s1 ck = _ :=
    (feedByte_eq_execBy (rxClass_flagsLo hp1 lo)).trans (execRxFlagsLo_eq hp1 (by rw [hw1]; decide))
  have hg2 := hg1.feed hf2
  generalize hs2 : deliver _ _ = s2 at hg2
  have hh2 : s2.parser.held = some [Config.marker, lo] := by rw [← hs2]; exact ParserRegs.held_append hh1 lo
  have hp2 : s2.parser.ps = .gotFlagsLow := by rw [← hs2]; rfl
  have hw2 : s2.parser.wrIdx = 2 := by rw [← hs2]; simp [deliver, hw1]
  have hl2 : s2.parser.readBuf 1 = some lo := by rw [ParserRegs.readBuf_of_held hh2]; rfl
  have hcl : rxClass s2.parser hi ck = .ok .flagsHiOk := by rw [rxClass_flagsHi hp2 hl2, if_pos hc]
  have hf3 : feedByte hi s2 ck = _ := (feedByte_eq_execBy hcl).trans (execRxFlagsHiOk_eq hp2 hw2 hl2 hc)
  refine ⟨_, ?_, hg2.feed hf3, rfl, rfl, ParserRegs.held_append hh2 hi⟩
  rw [feedRun_cons hg.2 hf1, hs1, feedRun_cons hg1.2 hf2, hs2, feedRun_cons hg2.2 hf3]; rfl

/-- All the bytes of a body but the last. -/
theorem feedRun_body (l : List Byte) : ∀ (s : State) (h0 : List Byte), Ready s ck → s.parser.ps = .accumulating →
    s.parser.rem = l.length + 1 → s.parser.held = some h0 →
    ∃ u, feedRun l s ck = some (List.replicate l.length .incomplete, u) ∧ Ready u ck ∧ u.parser.ps = .accumulating ∧
      u.parser.rem = 1 ∧ u.parser.held = some (h0 ++ l) := by
  induction l with
  | nil => intro s h0 hg hp hr hh; exact ⟨s, rfl, hg, hp, hr, by simpa using hh⟩
  | cons b l ih =>
    intro s h0 hg hp hr hh
    have hr' : 1 < s.parser.rem := by rw [hr]; simp
    have hw : s.parser.wrIdx < Config.bufBytes :=
      Nat.lt_of_le_of_lt (ParserRegs.phaseInv_accumulating hg.1.1.2.1 hp).1.2 (by decide)
    have hf : feedByte b s ck = _ := (feedByte_eq_execBy (rxClass_body hp hr' b)).trans (execRxBody_eq hp hr' hw)
    obtain ⟨u, h1, h2, h3, h4, h5⟩ :=
      ih _ (h0 ++ [b]) (hg.feed hf) hp (by simp [deliver, hr]) (ParserRegs.held_append hh b)
    exact ⟨u, by rw [feedRun_cons hg.2 hf, h1]; rfl, h2, h3, h4, by simpa using h5⟩

/-- The checksum test at the end of a frame. -/
def ckHolds (lo hi cmd c0 c1 : Byte) (payload : List Byte) (ck : Config.CkStep := Config.ckStep) : Bool :=
  le16 c0 c1 = checksum ([Config.marker, lo, hi, cmd] ++ payload) ck

/-- A whole frame whose length is accepted: ready at the last byte if the checksum holds, dropped there if not. -/
theorem feedRun_frame (lo hi cmd c0 c1 : Byte) (payload : List Byte) {s : State} (hg : Ready s ck)
    (hp : s.parser.ps = .hunting) (hc : countInRange (flagsCount (le16 lo hi)) = true)
    (hn : flagsCount (le16 lo hi) = payload.length + 3) :
    ∃ u, feedRun ([Config.marker, lo, hi, cmd] ++ payload ++ [c0, c1]) s ck =
        some (List.replicate (5 + payload.length) .incomplete ++
          [if ckHolds lo hi cmd c0 c1 payload ck then .frameReady else .incomplete], u) ∧
      Ready u ck ∧ u.parser.ps = .hunting ∧
      u.parser.held = some ([Config.marker, lo, hi, cmd] ++ payload ++ [c0, c1]) ∧
      u.parser.frameOk = ckHolds lo hi cmd c0 c1 payload ck ∧
      (ckHolds lo hi cmd c0 c1 payload ck = true → u.parser.cmdLatched = cmd) := by
  obtain ⟨u1, h1, hg1, hp1, hr1, hh1⟩ := feedRun_header lo hi hg hp hc
  obtain ⟨u2, h2, hg2, hp2, hr2, hh2⟩ := feedRun_body (cmd :: payload ++ [c0]) u1 _ hg1 hp1 (by rw [hr1, hn]; simp) hh1
  have e : [Config.marker, lo, hi, cmd] ++ payload ++ [c0, c1] =
      [Config.marker, lo, hi] ++ ((cmd :: payload ++ [c0]) ++ [c1]) := by simp
  obtain ⟨l, cl, t, hl, hcl, ht, hcase⟩ := feedByte_cases hg2.1.1 c1
  have hl' : l = [Config.marker, lo, hi, cmd] ++ payload ++ [c0] := by
    rw [hl] at hh2; simpa using Option.some.inj hh2
  have happ : (u2.parser.append c1).held = some ([Config.marker, lo, hi, cmd] ++ payload ++ [c0, c1]) := by
    rw [ParserRegs.held_append hl c1, hl']; simp
  have hrun : feedRun ([Config.marker, lo, hi, cmd] ++ payload ++ [c0, c1]) s ck =
      some (List.replicate (5 + payload.length) .incomplete ++ [t.feedOut], (deliver t (.ready t.feedOut))) := by
    rw [e, feedRun_append h1, feedRun_append h2, feedRun_cons hg2.2 ht]
    simp only [feedRun, Option.map_some, ← List.append_assoc, List.replicate_append_replicate]
    rw [show 3 + (cmd :: payload ++ [c0]).length = 5 + payload.length by simp; omega]
  have hg3 := hg2.feed ht
  cases hcase
  case lastOk m lo' hi' cmd' mid c0' _ _ h3 h4 =>
    rw [hl'] at h3
    obtain ⟨h5, h6⟩ := List.append_inj' h3 rfl
    cases h6
    rw [← h5] at h4
    have hck : ckHolds lo hi cmd c0 c1 payload ck = true := by rw [ckHolds, decide_eq_true_eq]; exact h4
    simp only [List.cons_append, List.nil_append, List.cons.injEq] at h5
    exact ⟨_, by rw [if_pos hck]; exact hrun, hg3, rfl, happ, hck.symm, fun _ => h5.2.2.2.1.symm⟩
  case lastBad m lo' hi' cmd' mid c0' _ _ h3 h4 =>
    rw [hl'] at h3
    obtain ⟨h5, h6⟩ := List.append_inj' h3 rfl
    cases h6
    rw [← h5] at h4
    have hck : ckHolds lo hi cmd c0 c1 payload ck = false := by rw [ckHolds, decide_eq_false_iff_not]; exact h4
    refine ⟨_, by rw [if_neg (by simp [hck])]; exact hrun, hg3, rfl, happ, ?_, fun h => by rw [hck] at h; cases h⟩
    rw [hck]
    exact (ParserRegs.phaseInv_accumulating hg2.1.1.2.1 hp2).2.2.2.2
  all_goals simp_all

/-! ### The encoder's flags -/

theorem encodeFlags_eq (w : Bool) {n : Nat} (h : n ≤ 1016) : encodeFlags w n = mkFlags w 0 (BitVec.ofNat 10 (1 + n)) := by
  have h2 : (BitVec.ofNat 10 (1 + n)).setWidth 16 = BitVec.ofNat 16 (1 + n) := by
    apply BitVec.eq_of_toNat_eq; simp; omega
  have h1 : BitVec.twoPow 16 Config.writeBit = 1#16 := rfl
  simp only [encodeFlags, mkFlags, h2, h1]
  cases w <;> simp

theorem encodeFlags_toNat (w : Bool) {n : Nat} (h : n ≤ 1016) : (encodeFlags w n).toNat = (1 + n) * 64 + w.toNat := by
  rw [encodeFlags_eq w h, mkFlags_toNat]; simp; omega

theorem flagsCount_encodeFlags (w : Bool) {n : Nat} (h : n ≤ 1016) : flagsCount (encodeFlags w n) = n + 3 := by
  have : w.toNat < 2 := Bool.toNat_lt w
  rw [flagsCount_eq, encodeFlags_toNat w h]
  omega

end Sys2Proof.Machine
end

