-- ==== Sys2Proof/Tests/Slice0.lean ====
section
/-! SUPPORT. The model's own tests: ill-formed terms refused; words written out from the spec's encodings; one-step
vectors of spec/95_test_vectors.md (expected values are the spec's, from the rules named beside them); and for every
statement with hypotheses a state and operands that meet them. -/

namespace Sys2Proof.Machine.Tests

open Sys2Proof Sys2Proof.Machine

/-! ### Helpers -/

/-- The next state of an outcome, if it is one. -/
def nextOf : Out → Option State
  | .next s => some s
  | .fault _ => none
  | .refused _ => none

/-- The refusal of an outcome, if it is one. -/
def refusalOf : Out → Option Refusal
  | .next _ => none
  | .fault _ => none
  | .refused r => some r

/-- A parser fed some bytes from power-on. -/
def fed (bytes : List Byte) : State :=
  match feedRun bytes State.reset with
  | some (_, s) => s
  | none => State.reset

/-- A parser that has discarded one noise byte. -/
def quiet : State := fed [0x13]

/-- The shortest frame, vector E1. -/
def e1 : List Byte := [0xAA, 0x40, 0x00, 0x2C, 0x8D, 0xF1]

/-- The state with a call waiting. -/
def calling (c : HostCall) (s : State) : State := s.setHost [c]

/-- A wait of the host for a command, in non-blocking or blocking mode with deadline 7 at time 3, and these answers of
the environment. -/
def waiting (expect : Byte) (blocking : Bool) (polls : List (Option Byte)) (ticks : List Time) (s : State) : State :=
  { s with
    cs := .wait .host
    reader := { expect := expect, toVal := if blocking then 4 else 0, wmode := blocking, tDeadline := 7 }
    env := { s.env with polls := polls, ticks := ticks, time := 3 } }

/-- A request loaded, on a transport with these answers. -/
def loaded (polls : List (Option Byte)) : State :=
  { quiet with
    req := { valid := true, cmd := 0x2C, len := 2, bytes := [(0, 0x11), (1, 0x22)] }
    env := { quiet.env with polls := polls } }

/-- The same, a `TRANSACT` with timeout 0 started. -/
def started (polls : List (Option Byte)) : State :=
  { loaded polls with attempt := 0, cs := .send 0, result := none }

/-! ### Well-formedness: each check refuses an ill-formed term -/

theorem test_wf_frame_read : (Instr.frameRead 0x2C 0 1 [0x8D]).wellFormed = false := by decide
theorem test_wf_frame_write : (Instr.frameWrite 0x2C 0 1 [0x8D, 0xF1, 0x00]).wellFormed = false := by decide
theorem test_wf_noise : (Instr.rxNoise 0xAA).wellFormed = false := by decide

theorem test_wf_encode : (Instr.encode 9 true (List.replicate 1017 0)).wellFormed = false := by
  rw [Instr.wellFormed, List.length_replicate]; decide

theorem test_wf_encode_longest : (Instr.encode 9 true (List.replicate 1016 0)).wellFormed = true := by
  rw [Instr.wellFormed, List.length_replicate]; decide

theorem test_wf_req_load : (Instr.reqLoad 9 (List.replicate 1023 0)).wellFormed = false := by
  rw [Instr.wellFormed, List.length_replicate]; decide

theorem test_wf_req_load_longest : (Instr.reqLoad 9 (List.replicate 1022 0)).wellFormed = true := by
  rw [Instr.wellFormed, List.length_replicate]; decide

/-! ### Decoding: words from R90, R91, R104, R105 -/

theorem test_decode_frame_read : (decode tableContext (.call (.frame e1))).toOption =
    some (.frameRead 0x2C 0 1 [0x8D, 0xF1]) := by decide

/-- Flags `7F FE`: field 1111111001, reserved 11111, write 1; a frame of that length needs 1018 more bytes, so these
seven are no frame. -/
theorem test_decode_frame_length : (decode tableContext (.call (.frame [0xAA, 0x7F, 0xFE, 0x55, 0x01, 0x0B, 0x09]))) =
    .error (.frameLength 7) := by decide

/-- Vector E4, flags 0x0081. -/
theorem test_decode_frame_write : (decode tableContext (.call (.frame [0xAA, 0x81, 0x00, 0x55, 0x01, 0x0B, 0x09]))) =
    .ok (.frameWrite 0x55 0 2 [0x01, 0x0B, 0x09]) := by decide

/-- Vector P11, reserved bits set. -/
theorem test_decode_frame_reserved : (decode tableContext (.call (.frame [0xAA, 0x7E, 0x00, 0x2C, 0x5F, 0xC4]))) =
    .ok (.frameRead 0x2C 0x1F 1 [0x5F, 0xC4]) := by decide

theorem test_decode_no_marker : decode tableContext (.call (.frame [0x55, 0x40, 0x00, 0x2C, 0x8D, 0xF1])) =
    .error (.noMarker 0x55) := by decide

theorem test_decode_noise : decode tableContext (.key 0b000_00010011#11) = .ok (.rxNoise 0x13) := by decide
theorem test_decode_marker : decode tableContext (.key 0b000_10101010#11) = .ok .rxMarker := by decide
theorem test_decode_flags_lo : decode tableContext (.key 0b001_10101010#11) = .ok (.rxFlagsLo 0xAA) := by decide

/-- Vector P3: flags `40 FE`, count 1019, and `80 FE`, count 1020. -/
theorem test_decode_flags_hi_ok : decode { tableContext with flagsLo := some 0x40 } (.key 0b010_11111110#11) =
    .ok (.rxFlagsHiOk 0xFE) := by decide

theorem test_decode_flags_hi_bad : decode { tableContext with flagsLo := some 0x80 } (.key 0b010_11111110#11) =
    .ok (.rxFlagsHiBad 0xFE) := by decide

/-- Vector P3: flags `3F 00`, count 2. -/
theorem test_decode_flags_hi_short : decode { tableContext with flagsLo := some 0x3F } (.key 0b010_00000000#11) =
    .ok (.rxFlagsHiBad 0x00) := by decide

theorem test_decode_body : decode { tableContext with rem := 2 } (.key 0b100_10101010#11) = .ok (.rxBody 0xAA) := by
  decide

/-- The last byte of E1: checksum 0xF18D, low byte 0x8D already received. -/
theorem test_decode_last_ok :
    decode { flagsLo := some 0x40, rem := 1, ckLo := some 0x8D, ckCalc := some 0xF18D } (.key 0b100_11110001#11) =
      .ok (.rxLastOk 0xF1) := by decide

theorem test_decode_last_bad :
    decode { flagsLo := some 0x40, rem := 1, ckLo := some 0x8D, ckCalc := some 0xF18D } (.key 0b100_11110000#11) =
      .ok (.rxLastBad 0xF0) := by decide

theorem test_decode_unused_state : decode tableContext (.key 0b011_00000000#11) = .error (.unusedParserState 3) := by
  decide

theorem test_decode_ops :
    [0, 1, 2, 3, 4, 5, 6, 7].map (fun op : BitVec 3 =>
      decodeOp { op := op, byteArg := 0x2C, flagArg := true, seqArg := [0x11], timeArg := 5 }) =
    [.parserReset, .feed 0x2C, .frameGet, .checksum [0x11], .encode 0x2C true [0x11], .reqLoad 0x2C [0x11],
      .waitFrame 0x2C 5, .transact 5] := by decide

theorem test_decode_other_request : decodeCall (.other [0x07]) = .error .notAnOperation := by decide

/-! ### One step: the vectors of spec/95_test_vectors.md -/

/-- K13. -/
theorem test_checksum_k13 : (nextOf (exec (.checksum [0xAA, 0x40, 0x00, 0x2C]) quiet)).map (·.result) =
    some (some (.checksum 0xF18D)) := by decide

/-- K12. -/
theorem test_checksum_k12 : checksum [0x31, 0x32, 0x33, 0x34, 0x35, 0x36, 0x37, 0x38, 0x39] = 0xA10C := by decide

/-- E1. -/
theorem test_encode_e1 : (nextOf (exec (.encode 44 false []) quiet)).map (·.result) = some (some (.bytes e1)) := by decide

/-- E10. -/
theorem test_encode_e10 : (nextOf (exec (.encode 0xAA true [0xAA, 0xAA]) quiet)).map (·.result) =
    some (some (.bytes [0xAA, 0xC1, 0x00, 0xAA, 0xAA, 0xAA, 0xB5, 0x9D])) := by decide

/-- R151's example: the latched frame stays. -/
theorem test_noise : (nextOf (exec (.rxNoise 0x13) (fed e1))).map (fun t => (t.parser, t.feedOut)) =
    some ((fed e1).parser, .incomplete) := by decide

/-- R152's example, on a parser with a latched frame. -/
theorem test_marker : (nextOf (exec .rxMarker (fed e1))).map
      (fun t => (t.parser.ps, t.parser.wrIdx, t.parser.frameOk, t.parser.readBuf 0)) =
    some (.gotMarker, 1, false, some 0xAA) := by decide

/-- P6: a marker value is taken as a flags byte. -/
theorem test_flags_lo : (nextOf (exec (.rxFlagsLo 0xAA) (fed [0xAA]))).map
      (fun t => (t.parser.ps, t.parser.wrIdx, t.parser.readBuf 1)) = some (.gotFlagsLow, 2, some 0xAA) := by decide

/-- P1, byte 2: flags 0x0140, count 7. -/
theorem test_flags_hi_ok : (nextOf (exec (.rxFlagsHiOk 0x01) (fed [0xAA, 0x40]))).map
      (fun t => (t.parser.ps, t.parser.rem, t.parser.wrIdx)) = some (.accumulating, 7, 3) := by decide

/-- P3: flags `40 FE`, count 1019. -/
theorem test_flags_hi_longest : (nextOf (exec (.rxFlagsHiOk 0xFE) (fed [0xAA, 0x40]))).map
      (fun t => (t.parser.ps, t.parser.rem)) = some (.accumulating, 1019) := by decide

/-- P3: flags `00 00` and `80 FE`. -/
theorem test_flags_hi_bad : (nextOf (exec (.rxFlagsHiBad 0x00) (fed [0xAA, 0x00]))).map
      (fun t => (t.parser.ps, t.parser.rem, t.parser.wrIdx)) = some (.hunting, 0, 3) := by decide

theorem test_flags_hi_too_long : (nextOf (exec (.rxFlagsHiBad 0xFE) (fed [0xAA, 0x80]))).map
      (fun t => (t.parser.ps, t.parser.rem)) = some (.hunting, 0) := by decide

/-- P1, byte 3. -/
theorem test_body : (nextOf (exec (.rxBody 0x2C) (fed [0xAA, 0x40, 0x01]))).map
      (fun t => (t.parser.rem, t.parser.wrIdx, t.parser.readBuf 3)) = some (6, 4, some 0x2C) := by decide

/-- R157's example. -/
theorem test_last_ok : (nextOf (exec (.rxLastOk 0xF1) (fed [0xAA, 0x40, 0x00, 0x2C, 0x8D]))).map
      (fun t => (t.feedOut, t.parser.ps, t.parser.cmdLatched, t.parser.frameOk, t.parser.payload)) =
    some (.frameReady, .hunting, 0x2C, true, some []) := by decide

/-- R158's example. -/
theorem test_last_bad : (nextOf (exec (.rxLastBad 0xF0) (fed [0xAA, 0x40, 0x00, 0x2C, 0x8D]))).map
      (fun t => (t.feedOut, t.parser.ps, t.parser.frameOk, t.parser.wrIdx)) =
    some (.incomplete, .hunting, false, 6) := by decide

/-- A class in another class's state is refused (log 9). -/
theorem test_other_class : refusalOf (exec (.rxBody 0x2C) quiet) = some .otherClass := by decide

/-- P12: reset in mid-frame. -/
theorem test_parser_reset : (nextOf (exec .parserReset (fed [0xAA, 0x40, 0x01, 0x2C]))).map
      (fun t => (t.parser.ps, t.parser.rem, t.parser.wrIdx, t.parser.frameOk)) = some (.hunting, 0, 4, false) := by decide

/-- P1: ten bytes, and what `get` then answers. -/
theorem test_frame_get :
    (nextOf (exec .frameGet (fed [0xAA, 0x40, 0x01, 0x2C, 0x96, 0x00, 0x00, 0x00, 0x04, 0x1E]))).map (·.result) =
      some (some (.frame { cmd := 0x2C, write := false, flagsRaw := 0x0140, payload := [0x96, 0x00, 0x00, 0x00] })) := by
  decide

/-- P13: at power-on `get` is refused, and again after a marker. -/
theorem test_frame_get_refused : refusalOf (exec .frameGet quiet) = some .noFrame ∧
    refusalOf (exec .frameGet (fed (e1 ++ [0xAA]))) = some .noFrame := by decide

theorem test_feed : (nextOf (exec (.feed 0xF1) (fed [0xAA, 0x40, 0x00, 0x2C, 0x8D]))).map (·.result) =
    some (some (.ready .frameReady)) := by decide

/-- P2 as one `feedall`. -/
theorem test_frame_read : (nextOf (exec (.frameRead 0x2C 0 1 [0x8D, 0xF1]) quiet)).map
      (fun t => (t.result, t.parser.cmdLatched)) = some (some (.readyAt [5]), 0x2C) := by decide

/-- P9: a frame full of markers. -/
theorem test_frame_write : (nextOf (exec (.frameWrite 0xAA 0 3 [0xAA, 0xAA, 0xB5, 0x9D]) quiet)).map
      (fun t => (t.result, (latchedFrame t.parser).toOption)) =
    some (some (.readyAt [7]), some { cmd := 0xAA, write := true, flagsRaw := 0x00C1, payload := [0xAA, 0xAA] }) := by
  decide

/-- P4: a wrong checksum: no position. -/
theorem test_frame_read_bad : (nextOf (exec (.frameRead 0x2C 0 1 [0x8D, 0xF0]) quiet)).map
      (fun t => (t.result, t.parser.frameOk)) = some (some (.readyAt []), false) := by decide

/-- R190's example; a second load replaces the first. -/
theorem test_req_load : (nextOf (exec (.reqLoad 44 e1) (loaded []))).map
      (fun t => (t.req.valid, t.req.cmd, t.req.len, t.req.sequence)) = some (true, 0x2C, 6, some e1) := by decide

/-- R190: an empty request is accepted. -/
theorem test_req_load_empty : (nextOf (exec (.reqLoad 44 []) quiet)).map (fun t => (t.req.valid, t.req.sequence)) =
    some (true, some []) := by decide

/-- R180: the entry of a blocking wait, deadline `Now() + timeout`; W1's entry never looks at the clock. -/
theorem test_wait_blocking : (nextOf (exec (.waitFrame 44 5) (waiting 0 false [] [2] quiet |>.setCs .idle))).map
      (fun t => (t.cs, t.reader, t.env.time)) =
    some (.wait .host, { expect := 44, toVal := 5, wmode := true, tDeadline := 10 }, 5) := by decide

theorem test_wait_nonblocking : (nextOf (exec (.waitFrame 44 0) (waiting 0 false [] [2] quiet |>.setCs .idle))).map
      (fun t => (t.cs, t.reader.wmode, t.env.time)) = some (.wait .host, false, 3) := by decide

/-- R197. -/
theorem test_transact_no_request : (nextOf (exec (.transact 10) quiet)).map (fun t => (t.status, t.result, t.cs)) =
    some (.protocolState, some (.raised .protocolState), .idle) := by decide

/-- R194: start, then the whole request goes out and the wait for its command begins. -/
theorem test_transact_first_attempt : (nextOf (step (started []))).map (fun t => (t.env.tx, t.attempt, t.cs, t.reader.expect)) =
    some ([[0x11, 0x22]], 1, .wait (.transact 0), 0x2C) := by decide

/-- W2, last poll: the matching frame ends the wait. -/
theorem test_step_match :
    (nextOf (step (waiting 0x2C false [some 0xF1] [] (fed [0xAA, 0x40, 0x00, 0x2C, 0x8D])))).map
      (fun t => (t.cs, t.status, t.result)) =
    some (.idle, .ok, some (.waited (some { cmd := 0x2C, write := false, flagsRaw := 0x0040, payload := [] }))) := by
  decide

/-- W4: a frame with another command is dropped, stays latched, and the wait goes on. -/
theorem test_step_no_match :
    (nextOf (step (waiting 0x2D false [some 0xF1] [] (fed [0xAA, 0x40, 0x00, 0x2C, 0x8D])))).map
      (fun t => (t.cs, t.parser.frameOk, t.parser.cmdLatched)) = some (.wait .host, true, 0x2C) := by decide

/-- R188: expiry is `Now() >= t_deadline`: at 7 yes, at 6 no. -/
theorem test_step_expiry : (nextOf (step (waiting 0x2C true [none] [4] quiet))).map (fun t => (t.cs, t.status)) =
    some (.idle, .noFrame) ∧
    (nextOf (step (waiting 0x2C true [none] [3] quiet))).map (fun t => (t.cs, t.status)) = some (.wait .host, .ok) := by
  decide

/-- R225. -/
theorem test_busy : refusalOf (exec (.feed 0x13) (waiting 0x2C true [none] [4] quiet)) = some .busy := by decide

/-! ### Fetching a table word: step runs exactly it -/

theorem test_fetch_op : (nextOf (step (State.reset.withFetchWord 8 0))).map (·.result) = some (some .done) := by decide

theorem test_fetch_key : (nextOf (step (State.reset.withFetchWord 16 0x42C))).map
      (fun t => (t.parser.rem, t.parser.wrIdx, t.parser.readBuf 3)) = some (2, 4, some 0x2C) := by decide

theorem test_fetch_flags_bad : (nextOf (step (State.reset.withFetchWord 16 0x2FF))).map
      (fun t => (t.parser.ps, t.parser.wrIdx)) = some (.hunting, 3) := by decide

theorem test_fetch_frame : (nextOf (step (State.reset.withFetchWord 32 0x2C0040AA))).map (·.result) =
    some (some (.readyAt [])) := by decide

theorem test_fetch_reserved : refusalOf (step (State.reset.withFetchWord 16 0x3AA)) =
    some (.undecodable .notAnOperation) := by decide

/-! ### States that meet the hypotheses of the statements

One theorem per statement, named after it; the invariant of a state is stated once and used where a statement asks for
it. The parser in each of its states, its longest and shortest frames included. -/

theorem inv_quiet : quiet.Inv := ⟨⟨by decide, by decide, by decide⟩, by decide, by decide, by decide⟩

theorem inv_marker : (fed [0xAA]).Inv := ⟨⟨by decide, by decide, by decide⟩, by decide, by decide, by decide⟩

theorem inv_flags_low (lo : Byte) (h : lo = 0x40 ∨ lo = 0x00 ∨ lo = 0x80 ∨ lo = 0xFF) : (fed [0xAA, lo]).Inv := by
  rcases h with rfl | rfl | rfl | rfl <;>
    exact ⟨⟨by decide, by decide, by decide⟩, by decide, by decide, by decide⟩

theorem inv_longest : (fed [0xAA, 0x40, 0xFE]).Inv :=
  ⟨⟨by decide, by decide, by decide⟩, by decide, by decide, by decide⟩

theorem inv_body : (fed [0xAA, 0x40, 0x00, 0x2C]).Inv :=
  ⟨⟨by decide, by decide, by decide⟩, by decide, by decide, by decide⟩

theorem inv_last : (fed [0xAA, 0x40, 0x00, 0x2C, 0x8D]).Inv :=
  ⟨⟨by decide, by decide, by decide⟩, by decide, by decide, by decide⟩

theorem inv_latched : (fed e1).Inv := ⟨⟨by decide, by decide, by decide⟩, by decide, by decide, by decide⟩

theorem inv_loaded (polls : List (Option Byte)) : (loaded polls).Inv := by
  have h : (loaded []).req.Inv := by decide
  exact ⟨inv_quiet.1, h, Nat.zero_le _, rfl⟩

theorem inv_waiting (e : Byte) (blocking : Bool) (polls : List (Option Byte)) (ticks : List Time) {s : State}
    (h : s.Inv) : (waiting e blocking polls ticks s).Inv := by
  refine ⟨h.1, h.2.1, h.2.2.1, ?_⟩
  cases blocking <;> rfl

theorem witness_PowerOnAndParserResetValues : quiet.cs = .idle := by decide

theorem witness_ExecKeepsInvariant : quiet.Inv ∧ ∃ t, exec .rxMarker quiet = .next t := ⟨inv_quiet, _, rfl⟩

theorem witness_StepKeepsInvariant : (waiting 0x2C true [some 0xAA] [] quiet).Inv ∧
    ∃ t, step (waiting 0x2C true [some 0xAA] [] quiet) = .next t := ⟨inv_waiting _ _ _ _ inv_quiet, _, rfl⟩

theorem witness_MemoryReadsWhatWasWritten : Memory.wf [(1, 0x11), (3, 0x33)] ∧
    (2 < 3 ∨ 3 + [0x10, (0x20 : Byte)].length ≤ 2) ∧ (5 < 3 ∨ 3 + [0x10, (0x20 : Byte)].length ≤ 5) := by decide

/-- One instruction of each format, and each received-byte class that needs a context. -/
theorem witness_DecodeInvertsEncode :
    let c : RxContext := { flagsLo := some 0x40, rem := 1, ckLo := some 0x8D, ckCalc := some 0xF18D }
    ([Instr.frameRead 0x2C 0x1F 1 [0x8D, 0xF1], .frameWrite 0xFF 0 0 [0x00], .rxNoise 0x13, .rxMarker, .rxFlagsLo 0xAA,
        .rxFlagsHiOk 0xFE, .rxFlagsHiBad 0xFF, .rxLastOk 0xF1, .rxLastBad 0xF0, .encode 0xAA true [0x01],
        .reqLoad 0x2C e1, .transact 0].all fun i => i.wellFormed && i.fits c) = true ∧
      (Instr.rxBody 0xAA).fits { c with rem := 2 } = true := by decide

theorem witness_EncodeInvertsDecode :
    decode tableContext (.call (.frame e1)) = .ok (.frameRead 0x2C 0 1 [0x8D, 0xF1]) ∧
      decode tableContext (.key 0b000_10101010#11) = .ok .rxMarker := by decide

theorem witness_ByteClassesExhaustiveAndExclusive : quiet.parser.Inv ∧ (fed [0xAA, 0x40, 0x00, 0x2C, 0x8D]).parser.Inv :=
  ⟨inv_quiet.1, inv_last.1⟩

theorem witness_ChecksumOperation : quiet.cs = .idle := by decide

theorem witness_OneFlippedBitChangesChecksum : 0 < [(0xAA : Byte), 0x40].length ∧ 1 < [(0xAA : Byte), 0x40].length := by
  decide

theorem witness_EncodeBuildsTheFrame : quiet.cs = .idle ∧ ([] : List Byte).length ≤ 1016 ∧
    (List.replicate 1016 (0 : Byte)).length ≤ 1016 := by rw [List.length_replicate]; decide

theorem witness_EncodeRefusesLongPayload : quiet.cs = .idle ∧ 1016 < (List.replicate 1017 (0 : Byte)).length := by
  rw [List.length_replicate]; decide

theorem witness_NoiseByteIsDiscarded : quiet.parser.ps = .hunting ∧ (0xAB : Byte) ≠ 0xAA := by decide

theorem witness_MarkerStartsAFrame : quiet.parser.ps = .hunting ∧ (fed e1).parser.ps = .hunting := by decide

theorem witness_FlagsLowByteIsAppended : (fed [0xAA]).Inv ∧ (fed [0xAA]).parser.ps = .gotMarker :=
  ⟨inv_marker, by decide⟩

/-- Counts 3 and 1019. -/
theorem witness_AcceptedLengthStartsAccumulating : (fed [0xAA, 0x40]).Inv ∧
    (fed [0xAA, 0x40]).parser.ps = .gotFlagsLow ∧ (fed [0xAA, 0x40]).parser.readBuf 1 = some 0x40 ∧
    3 = ((0x40 : Byte).toNat + 256 * (0x00 : Byte).toNat) / 64 + 2 ∧
    1019 = ((0x40 : Byte).toNat + 256 * (0xFE : Byte).toNat) / 64 + 2 := ⟨inv_flags_low _ (.inl rfl), by decide⟩

/-- Counts 2, 1020 and 1025. -/
theorem witness_RejectedLengthReturnsToHunting :
    ((fed [0xAA, 0x00]).Inv ∧ (fed [0xAA, 0x80]).Inv ∧ (fed [0xAA, 0xFF]).Inv) ∧
    (fed [0xAA, 0x00]).parser.ps = .gotFlagsLow ∧ (fed [0xAA, 0x00]).parser.readBuf 1 = some 0x00 ∧
    (fed [0xAA, 0x80]).parser.ps = .gotFlagsLow ∧ (fed [0xAA, 0x80]).parser.readBuf 1 = some 0x80 ∧
    (fed [0xAA, 0xFF]).parser.ps = .gotFlagsLow ∧ (fed [0xAA, 0xFF]).parser.readBuf 1 = some 0xFF ∧
    2 = ((0x00 : Byte).toNat + 256 * (0x00 : Byte).toNat) / 64 + 2 ∧
    1020 = ((0x80 : Byte).toNat + 256 * (0xFE : Byte).toNat) / 64 + 2 ∧
    1025 = ((0xFF : Byte).toNat + 256 * (0xFF : Byte).toNat) / 64 + 2 :=
  ⟨⟨inv_flags_low _ (by decide), inv_flags_low _ (by decide), inv_flags_low _ (by decide)⟩, by decide⟩

/-- `rem` 2 and 1019. -/
theorem witness_BodyByteIsAccumulated : (fed [0xAA, 0x40, 0x00, 0x2C]).Inv ∧ (fed [0xAA, 0x40, 0xFE]).Inv ∧
    (fed [0xAA, 0x40, 0x00, 0x2C]).parser.ps = .accumulating ∧ (fed [0xAA, 0x40, 0x00, 0x2C]).parser.rem = 2 ∧
    (fed [0xAA, 0x40, 0xFE]).parser.ps = .accumulating ∧ (fed [0xAA, 0x40, 0xFE]).parser.rem = 1019 :=
  ⟨inv_body, inv_longest, by decide⟩

/-- The hypotheses common to the three statements about a last byte, with the byte that completes the checksum and one
that does not. -/
theorem witness_GoodLastByteLatchesTheFrame : (fed [0xAA, 0x40, 0x00, 0x2C, 0x8D]).Inv ∧
    (fed [0xAA, 0x40, 0x00, 0x2C, 0x8D]).parser.ps = .accumulating ∧
    (fed [0xAA, 0x40, 0x00, 0x2C, 0x8D]).parser.rem = 1 ∧
    (fed [0xAA, 0x40, 0x00, 0x2C, 0x8D]).parser.held = some ([0xAA, 0x40, 0x00, 0x2C] ++ [0x8D]) ∧
    le16 0x8D 0xF1 = checksum [0xAA, 0x40, 0x00, 0x2C] := ⟨inv_last, by decide⟩

theorem witness_BadLastByteIsDiscardedSilently : (fed [0xAA, 0x40, 0x00, 0x2C, 0x8D]).Inv ∧
    (fed [0xAA, 0x40, 0x00, 0x2C, 0x8D]).parser.ps = .accumulating ∧
    (fed [0xAA, 0x40, 0x00, 0x2C, 0x8D]).parser.rem = 1 ∧
    (fed [0xAA, 0x40, 0x00, 0x2C, 0x8D]).parser.held = some ([0xAA, 0x40, 0x00, 0x2C] ++ [0x8D]) ∧
    le16 0x8D 0xF0 ≠ checksum [0xAA, 0x40, 0x00, 0x2C] := ⟨inv_last, by decide⟩

theorem witness_LastByteLeavesTheChecksumInTheAccumulator : (fed [0xAA, 0x40, 0x00, 0x2C, 0x8D]).Inv ∧
    (fed [0xAA, 0x40, 0x00, 0x2C, 0x8D]).parser.held = some ([0xAA, 0x40, 0x00, 0x2C] ++ [0x8D]) ∧
    (nextOf (exec (RxClass.lastOk.instr 0xF1) (fed [0xAA, 0x40, 0x00, 0x2C, 0x8D]))).isSome ∧
    (nextOf (exec (RxClass.lastBad.instr 0xF0) (fed [0xAA, 0x40, 0x00, 0x2C, 0x8D]))).isSome := ⟨inv_last, by decide⟩

theorem witness_OtherClassIsRefused : (RxClass.body = .marker → (0x13 : Byte) = 0xAA) ∧
    RowHolds quiet.parser 0x13 .noise ∧ RxClass.body ≠ .noise :=
  ⟨fun h => absurd h (by decide), ⟨by decide, by decide⟩, by decide⟩

theorem witness_FeedRunsExactlyOneClass : quiet.Inv ∧ quiet.cs = .idle ∧ quiet.parser.ps = .hunting :=
  ⟨inv_quiet, by decide⟩

theorem witness_ParserResetAbandonsPartialFrame : (fed [0xAA, 0x40, 0x00, 0x2C]).cs = .idle ∧ (fed e1).Inv ∧
    (fed e1).cs = .idle ∧ (fed e1).parser.ps = .hunting := ⟨by decide, inv_latched, by decide⟩

theorem witness_FrameGetReturnsTheLatchedFrame : (fed e1).Inv ∧ (fed e1).cs = .idle ∧ (fed e1).parser.frameOk = true :=
  ⟨inv_latched, by decide⟩

theorem witness_OnlyAMarkerClosesTheFrameWindow : (quiet.cs = .idle ∧ quiet.parser.frameOk = false) ∧
    (fed e1).parser.frameOk = true ∧
    (nextOf (exec (.feed 0xAA) (fed e1))).map (·.parser.frameOk) = some false := by decide

theorem witness_EncodedFrameRoundTrips : quiet.Inv ∧ quiet.cs = .idle ∧ quiet.parser.ps = .hunting ∧
    (List.replicate 1016 (0 : Byte)).length ≤ 1016 := by
  rw [List.length_replicate]; exact ⟨inv_quiet, by decide⟩

theorem witness_ResynchronisesAfterGarbage : quiet.Inv ∧ quiet.cs = .idle ∧ quiet.parser.ps = .hunting ∧
    (∀ b ∈ [(0x00 : Byte), 0x13, 0xFF], b ≠ 0xAA) ∧ ([] : List Byte).length ≤ 1016 := ⟨inv_quiet, by decide⟩

/-- Bit 5 of the low flags byte, the command byte, the last checksum byte. -/
theorem witness_FlippedFrameIsSilentlyDropped : quiet.Inv ∧ quiet.cs = .idle ∧ quiet.parser.ps = .hunting ∧
    (1 = 1 ∧ (5 : Fin 8).val < 6 ∨ 3 ≤ 1 ∧ 1 < 6 + [(0x96 : Byte)].length) ∧
    (3 = 1 ∧ (7 : Fin 8).val < 6 ∨ 3 ≤ 3 ∧ 3 < 6 + [(0x96 : Byte)].length) ∧
    (6 = 1 ∧ (7 : Fin 8).val < 6 ∨ 3 ≤ 6 ∧ 6 < 6 + [(0x96 : Byte)].length) := ⟨inv_quiet, by decide⟩

/-- Fields 1 and 1017. -/
theorem witness_FrameKindsAreReceived : quiet.Inv ∧ quiet.cs = .idle ∧ quiet.parser.ps = .hunting ∧
    ([] : List Byte).length + 1 = (1 : BitVec 10).toNat ∧
    (List.replicate 1016 (0 : Byte)).length + 1 = (1017 : BitVec 10).toNat ∧ (1017 : BitVec 10).toNat ≤ 1017 := by
  rw [List.length_replicate]; exact ⟨inv_quiet, by decide⟩

theorem witness_FrameRowsAreFeedAll : (fed [0xAA, 0x40, 0xFE]).Inv ∧ (fed [0xAA, 0x40, 0xFE]).cs = .idle :=
  ⟨inv_longest, by decide⟩

theorem witness_WaitFrameBegins : quiet.cs = .idle ∧ 0 < 1 := by decide

/-- Non-blocking; blocking with `Now()` at the deadline; blocking one tick before it. -/
theorem witness_EmptyPollEndsOrContinuesTheWait :
    ((waiting 1 false [none] [] quiet).cs = .wait .host ∧ (waiting 1 false [none] [] quiet).env.rxPoll.1 = none ∧
      (waiting 1 false [none] [] quiet).reader.wmode = false) ∧
    ((waiting 1 true [none] [4] quiet).env.rxPoll.1 = none ∧ (waiting 1 true [none] [4] quiet).reader.wmode = true ∧
      (waiting 1 true [none] [4] quiet).reader.tDeadline = (waiting 1 true [none] [4] quiet).env.rxPoll.2.now.1) ∧
    (waiting 1 true [none] [3] quiet).env.rxPoll.2.now.1 + 1 = (waiting 1 true [none] [3] quiet).reader.tDeadline := by
  decide

theorem witness_PolledByteIsParsedThenMatched :
    (waiting 0x2C true [some 0xF1] [] (fed [0xAA, 0x40, 0x00, 0x2C, 0x8D])).Inv ∧
    (waiting 0x2C true [some 0xF1] [] (fed [0xAA, 0x40, 0x00, 0x2C, 0x8D])).cs = .wait .host ∧
    (waiting 0x2C true [some 0xF1] [] (fed [0xAA, 0x40, 0x00, 0x2C, 0x8D])).env.rxPoll.1 = some 0xF1 :=
  ⟨inv_waiting _ _ _ _ inv_last, by decide⟩

theorem witness_DeadlineIgnoredWhileBytesArrive :
    (waiting 0x2C true [some 0xAA] [] quiet).Inv ∧ (waiting 0x2C true [some 0xAA] [] quiet).cs = .wait .host ∧
    (waiting 0x2C true [some 0xAA] [] quiet).env.rxPoll.1 = some 0xAA ∧
    ∃ t, step (waiting 0x2C true [some 0xAA] [] quiet) = .next t :=
  ⟨inv_waiting _ _ _ _ inv_quiet, by decide, by decide, _, rfl⟩

theorem witness_NonBlockingWaitEnds : (waiting 0x2C false ([0xF1].map some ++ none :: []) [] quiet).Inv ∧
    (waiting 0x2C false ([0xF1].map some ++ none :: []) [] quiet).cs = .wait .host ∧
    (waiting 0x2C false ([0xF1].map some ++ none :: []) [] quiet).reader.wmode = false ∧
    (waiting 0x2C false ([0xF1].map some ++ none :: []) [] quiet).env.polls = [0xF1].map some ++ none :: [] :=
  ⟨inv_waiting _ _ _ _ inv_quiet, by decide⟩

theorem witness_RequestLoadReplacesTheRequest : (loaded []).cs = .idle ∧ ([] : List Byte).length ≤ 1022 ∧
    (List.replicate 1022 (0 : Byte)).length ≤ 1022 := by rw [List.length_replicate]; decide

theorem witness_RequestLoadRefusesLongRequest : quiet.cs = .idle ∧ 1022 < (List.replicate 1023 (0 : Byte)).length := by
  rw [List.length_replicate]; decide

theorem witness_TransactWithoutRequestFails : (quiet.cs = .idle ∧ quiet.req.valid = false) ∧
    (nextOf (exec .rxMarker quiet)).isSome := by decide

theorem witness_TransactStarts : (loaded []).cs = .idle ∧ (loaded []).req.valid = true := by decide

theorem witness_AttemptWritesResetsAndWaits : (started []).cs = .send 0 ∧ (started []).attempt < 4 ∧
    ({ started [] with cs := .send 1, attempt := 3 } : State).cs = .send 1 ∧
    (started []).req.sequence = some [0x11, 0x22] := by decide

theorem witness_FifthAttemptIsNeverBegun : ({ started [] with attempt := 4 } : State).cs = .send 0 := by decide

/-- A transaction that ends with `Timeout` after nine steps, and one that ends with `Ok` after seven. -/
theorem witness_TransactionWritesOncePerAttempt (polls : List (Option Byte)) (n : Nat)
    (h : polls = [none, none, none, none] ∧ n = 9 ∨ polls = e1.map some ∧ n = 7) :
    (loaded polls).Inv ∧ (loaded polls).cs = .idle ∧ (loaded polls).req.sequence = some [0x11, 0x22] ∧
    exec (.transact 0) (loaded polls) = .next (started polls) ∧
    (∀ m, m < n → ∃ v, steps m (started polls) = .next v ∧ v.cs ≠ .idle) ∧
    ∃ u, steps n (started polls) = .next u ∧ u.cs = .idle := by
  refine ⟨inv_loaded _, rfl, rfl, rfl, ?_⟩
  have key : ∀ m, (nextOf (steps m (started polls))).isSome →
      ∃ v, steps m (started polls) = .next v ∧ nextOf (steps m (started polls)) = some v := by
    intro m hm
    cases hs : steps m (started polls) with
    | next v => exact ⟨v, rfl, rfl⟩
    | fault r => rw [hs] at hm; cases hm
    | refused r => rw [hs] at hm; cases hm
  have all : (∀ m, m < n → (nextOf (steps m (started polls))).any (fun v => v.cs ≠ .idle)) ∧
      (nextOf (steps n (started polls))).any (fun v => v.cs = .idle) := by
    rcases h with ⟨rfl, rfl⟩ | ⟨rfl, rfl⟩ <;> decide
  refine ⟨fun m hm => ?_, ?_⟩
  · have ha := all.1 m hm
    obtain ⟨v, hv, hn⟩ := key m (Option.isSome_of_any ha)
    rw [hn] at ha
    exact ⟨v, hv, by simpa using ha⟩
  · have ha := all.2
    obtain ⟨v, hv, hn⟩ := key n (Option.isSome_of_any ha)
    rw [hn] at ha
    exact ⟨v, hv, by simpa using ha⟩

theorem witness_SilentTransportTimesOut : (loaded [none, none, none, none]).cs = .idle ∧
    (loaded [none, none, none, none]).req.valid = true ∧
    (loaded [none, none, none, none]).req.sequence = some [0x11, 0x22] ∧
    (loaded [none, none, none, none]).env.polls = [none, none, none, none] ++ [] ∧
    exec (.transact 0) (loaded [none, none, none, none]) = .next (started [none, none, none, none]) :=
  ⟨by decide, by decide, by decide, by decide, rfl⟩

theorem witness_StepRunsTheDecodedInstruction :
    ((calling (callOf 1 0x13 [] 0) quiet).cs = .idle ∧
      (calling (callOf 1 0x13 [] 0) quiet).host = callOf 1 0x13 [] 0 :: [] ∧
      decode tableContext (.call (callOf 1 0x13 [] 0)) = .ok (.feed 0x13)) ∧
    decode tableContext (.call (.other [])) = .error .notAnOperation ∧ quiet.host = [] ∧
    ((waiting 1 true [some 0xAA] [] quiet).cs = .wait .host ∧
      (waiting 1 true [some 0xAA] [] quiet).env.rxPoll.1 = some 0xAA ∧
      decode (rxContext (waiting 1 true [some 0xAA] [] quiet).parser)
        (.key (rxKey (waiting 1 true [some 0xAA] [] quiet).parser.ps 0xAA)) = .ok .rxMarker) := by decide

theorem witness_OperationsRefusedWhileBusy : (waiting 1 true [] [] quiet).cs ≠ .idle ∧
    ∀ cl b, Instr.frameGet ≠ RxClass.instr cl b :=
  ⟨by decide, fun cl b => by cases cl <;> exact fun h => nomatch h⟩

theorem witness_ExecWritesOnlyItsOwnRegisters : (nextOf (exec (.feed 0xAA) quiet)).isSome ∧
    (nextOf (exec (.checksum [0x01]) quiet)).isSome ∧ (nextOf (exec (.transact 0) (loaded []))).isSome := by decide

theorem witness_TimeAndWritesOnlyGrow : (nextOf (step (started []))).isSome ∧
    (nextOf (step (waiting 1 true [none] [3] quiet))).isSome := by decide

theorem witness_RunningOperationNeverStops : (waiting 0x2C true [some 0xAA] [] quiet).Inv ∧
    (waiting 0x2C true [some 0xAA] [] quiet).cs ≠ .idle := ⟨inv_waiting _ _ _ _ inv_quiet, by decide⟩

theorem witness_HostReadsTheRegisters : quiet.cs = .idle ∧ quiet.req.valid = false ∧ (loaded []).req.valid = true ∧
    (waiting 1 true [] [] quiet).cs ≠ .idle := by decide

theorem witness_ReceivedByteStoresOnlyAtTheWriteIndex : (nextOf (exec (RxClass.noise.instr 0x13) quiet)).isSome ∧
    (nextOf (exec (RxClass.marker.instr 0xAA) quiet)).isSome ∧
    (nextOf (exec (RxClass.body.instr 0x8D) (fed [0xAA, 0x40, 0x00, 0x2C]))).isSome := by decide

/-! ### Another `CK_STEP` supplied (R127) -/

/-- The recurrence of spec/93_implementation_defined.md G1, with its one step more. -/
def ckStepG1 (acc : U16) (b : Byte) : U16 :=
  let code : U16 := (acc >>> 8) ^^^ b.setWidth 16
  let code : U16 := code ^^^ (code >>> 4)
  (acc <<< 8) ^^^ code ^^^ (code <<< 5) ^^^ (code <<< 12)

/-- G1's vectors: `CHECKSUM(AA 40 00 2C) = 0x7A9E`, check value 0x31C3. -/
theorem test_supplied_checksum :
    (nextOf (execBy ckStepG1 (.checksum [0xAA, 0x40, 0x00, 0x2C]) quiet)).map (·.result) = some (some (.checksum 0x7A9E)) ∧
    checksum [0x31, 0x32, 0x33, 0x34, 0x35, 0x36, 0x37, 0x38, 0x39] ckStepG1 = 0x31C3 := by decide

/-- G1's request `AA 40 00 2C 9E 7A` is a good frame with G1's recurrence and a bad one with R121's. -/
theorem test_supplied_frame :
    (feedRun [0xAA, 0x40, 0x00, 0x2C, 0x9E, 0x7A] quiet ckStepG1).map (·.1) = some (readyAtLast 5) ∧
    (feedRun [0xAA, 0x40, 0x00, 0x2C, 0x9E, 0x7A] quiet).map (·.1) = some (List.replicate 6 .incomplete) := by decide

theorem witness_SuppliedStepIsTheOneThatRuns : quiet.cs = .idle ∧ ([0x11] : List Byte).length ≤ 1016 ∧
    (∀ b, Instr.frameGet ≠ .rxLastOk b) ∧ (∀ b, Instr.frameGet ≠ .rxLastBad b) ∧ (∀ b, Instr.frameGet ≠ .feed b) ∧
    (∀ c r f l, Instr.frameGet ≠ .frameRead c r f l) ∧ (∀ c r f l, Instr.frameGet ≠ .frameWrite c r f l) ∧
    (∀ l, Instr.frameGet ≠ .checksum l) ∧ (∀ c w l, Instr.frameGet ≠ .encode c w l) := by
  refine ⟨by decide, by decide, ?_, ?_, ?_, ?_, ?_, ?_, ?_⟩ <;> intros <;> exact fun h => nomatch h

theorem witness_LastByteIsVerifiedWithTheSuppliedStep : (fed [0xAA, 0x40, 0x00, 0x2C, 0x8D]).Inv Config.ckStep ∧
    (fed [0xAA, 0x40, 0x00, 0x2C, 0x8D]).parser.ps = .accumulating ∧
    (fed [0xAA, 0x40, 0x00, 0x2C, 0x8D]).parser.rem = 1 ∧
    (fed [0xAA, 0x40, 0x00, 0x2C, 0x8D]).parser.held = some ([0xAA, 0x40, 0x00, 0x2C] ++ [0x8D]) ∧
    le16 0x8D 0xF1 = List.foldl Config.ckStep 0x0000 [0xAA, 0x40, 0x00, 0x2C] ∧
    le16 0x8D 0xF0 ≠ List.foldl Config.ckStep 0x0000 [0xAA, 0x40, 0x00, 0x2C] := ⟨inv_last, by decide⟩

/-- A function with the two properties, and a changed byte. -/
theorem witness_ChangedByteChangesTheChecksum :
    (∀ b : Byte, Function.Injective fun acc : U16 => acc ^^^ b.setWidth 16) ∧
    (∀ acc : U16, Function.Injective fun b : Byte => acc ^^^ b.setWidth 16) ∧
    0 < ([0x01] : List Byte).length ∧ ([0x01] : List Byte)[0]? ≠ some 0x02 :=
  ⟨fun b x y h => by simpa using h,
    fun acc x y h => by
      have := congrArg (BitVec.setWidth 8) ((BitVec.xor_right_inj acc).mp h)
      simpa using this,
    by decide⟩

theorem witness_EncodedFrameRoundTripsForAnyStep : quiet.Inv ckStepG1 ∧ quiet.cs = .idle ∧
    quiet.parser.ps = .hunting ∧ ([0x11] : List Byte).length ≤ 1016 :=
  ⟨⟨⟨by decide, by decide, by decide⟩, by decide, by decide, by decide⟩, by decide⟩

theorem witness_StepKeepsInvariantForAnyStep : quiet.Inv ckStepG1 ∧
    ∃ t, stepBy ckStepG1 (calling (callOf 1 0xAA [] 0) quiet) = .next t ∧
      (calling (callOf 1 0xAA [] 0) quiet).Inv ckStepG1 :=
  ⟨witness_EncodedFrameRoundTripsForAnyStep.1, _, rfl, witness_EncodedFrameRoundTripsForAnyStep.1⟩

end Sys2Proof.Machine.Tests
end

section
/-! PROOFS. The scope family (spec/00_scope.md): what the fetch runs (O48), and that time and the history of writes only
grow (O51). First one equation per branch of the fetch and of `step`, then what one instruction and one step do to the
environment. -/

namespace Sys2Proof.Machine

open Sys2Proof

/-! ### The fetch, branch by branch -/

theorem step_idle {s : State} (h : s.cs = .idle) : step s = idleStep s := by rw [step, h]

theorem step_send {s : State} {timeout : Time} (h : s.cs = .send timeout) : step s = sendStep timeout s := by
  rw [step, h]

theorem step_wait {s : State} {who : Waiter} (h : s.cs = .wait who) : step s = waitStep who s := by rw [step, h]

theorem idleStep_noCall {s : State} (h : s.host = []) : idleStep s = .next s := by rw [idleStep, h]

theorem idleStep_call {s : State} {c : HostCall} {rest : List HostCall} {i : Instr} (h : s.host = c :: rest)
    (hd : decodeCall c = .ok i) : idleStep s = exec i (s.setHost rest) := by
  simp only [idleStep, h, hd]

theorem idleStep_undecodable {s : State} {c : HostCall} {rest : List HostCall} {e : DecodeError}
    (h : s.host = c :: rest) (hd : decodeCall c = .error e) : idleStep s = .refused (.undecodable e) := by
  simp only [idleStep, h, hd]

/-- The idle block stays as it is for want of a call, or runs the instruction of its next one. -/
theorem idleStep_next {s t : State} (h : idleStep s = .next t) :
    (s.host = [] ∧ t = s) ∨
      ∃ c rest i, s.host = c :: rest ∧ decodeCall c = .ok i ∧ exec i (s.setHost rest) = .next t := by
  cases hh : s.host with
  | nil => rw [idleStep_noCall hh] at h; cases h; exact .inl ⟨rfl, rfl⟩
  | cons c rest =>
    cases hd : decodeCall c with
    | ok i => exact .inr ⟨c, rest, i, rfl, hd, idleStep_call hh hd ▸ h⟩
    | error e => rw [idleStep_undecodable hh hd] at h; cases h

theorem waitStep_byte {who : Waiter} {s : State} {b : Byte} (h : s.env.rxPoll.1 = some b) :
    waitStep who s = afterByte who (feedByte b (s.setEnv s.env.rxPoll.2)) := by
  simp only [waitStep, h]

/-- The decode key of a byte, read in the parser's own context, is the instruction of the class R104 gives the byte. -/
theorem decode_rxKey_ok {p : ParserRegs} {b : Byte} {i : Instr}
    (h : decode (rxContext p) (.key (rxKey p.ps b)) = .ok i) : ∃ cl, rxClass p b = .ok cl ∧ i = cl.instr b := by
  simp only [decode, decodeKey, rxKey_code, rxKey_byte, parserStateOf_code] at h
  cases hc : classify (rxContext p) p.ps b with
  | ok cl => rw [hc] at h; cases h; exact ⟨cl, hc, rfl⟩
  | error e => rw [hc] at h; cases h

/-- Settles O48: each clause is a branch of the fetch; at a delivered byte the decoded instruction is that of the byte's
class, and this is what the parser runs. -/
theorem stepRunsTheDecodedInstruction : Obligations.StepRunsTheDecodedInstruction := by
  refine ⟨?_, ?_, ?_, ?_⟩
  · intro s c rest ctx i hcs hh hd
    exact (step_idle hcs).trans (idleStep_call hh hd)
  · intro s c rest ctx e hcs hh hd
    exact (step_idle hcs).trans (idleStep_undecodable hh hd)
  · intro s hcs hh
    exact (step_idle hcs).trans (idleStep_noCall hh)
  · intro who s b i hcs hb hd
    obtain ⟨cl, hcl, rfl⟩ := decode_rxKey_ok hd
    have hf : feedByte b (s.setEnv s.env.rxPoll.2) = exec (cl.instr b) (s.setEnv s.env.rxPoll.2) :=
      feedByte_eq_exec hcl
    rw [step_wait hcs, waitStep_byte hb, hf]
    rfl

/-! ### The environment through an instruction and through a step -/

theorem SameButParser.env {s t : State} (h : SameButParser s t) : t.env = s.env := by
  obtain ⟨-, -, -, -, -, henv, -, -⟩ := h
  exact henv

/-- Of the instructions only `WAIT_FRAME` looks at the environment: it reads the clock as it begins (R180). -/
theorem exec_env_same {i : Instr} {s t : State} (h : exec i s = .next t) (hi : ∀ e timeout, i ≠ .waitFrame e timeout) :
    t.env = s.env := by
  have rx : ∀ {cl : RxClass} {b : Byte}, exec (cl.instr b) s = .next t → t.env = s.env := fun hx =>
    (exec_rx_same hx).1.env
  have frames : ∀ {l : List Byte}, whenIdle s (feedAll l 0 [] s) = .next t → t.env = s.env := fun hx => by
    obtain ⟨u, positions, hsame, rfl⟩ := feedAll_same (whenIdle_next hx).2
    exact hsame.env
  cases i with
  | frameRead cmd reserved field tail => exact frames h
  | frameWrite cmd reserved field tail => exact frames h
  | rxNoise b => exact rx (cl := .noise) h
  | rxMarker => exact rx (cl := .marker) (b := Config.marker) h
  | rxFlagsLo b => exact rx (cl := .flagsLo) h
  | rxFlagsHiOk b => exact rx (cl := .flagsHiOk) h
  | rxFlagsHiBad b => exact rx (cl := .flagsHiBad) h
  | rxBody b => exact rx (cl := .body) h
  | rxLastOk b => exact rx (cl := .lastOk) h
  | rxLastBad b => exact rx (cl := .lastBad) h
  | parserReset => cases (whenIdle_next h).2; rfl
  | feed b =>
    obtain ⟨u, hu, hd⟩ := afterFeed_next (whenIdle_next h).2
    cases hd
    exact (feedByte_same hu).1.env
  | frameGet =>
    have hk := (whenIdle_next h).2
    split at hk <;> cases hk
    rfl
  | checksum bytes => cases (whenIdle_next h).2; rfl
  | encode cmd isWrite payload =>
    have hk := (whenIdle_next h).2
    split at hk <;> cases hk
    rfl
  | reqLoad cmd bytes =>
    have hk := (whenIdle_next h).2
    split at hk <;> cases hk
    rfl
  | waitFrame e timeout => exact absurd rfl (hi e timeout)
  | transact timeout =>
    have hk := (whenIdle_next h).2
    split at hk <;> cases hk <;> rfl

/-- The environment `e'` comes after `e` with nothing written in between: time has not gone back (R14). -/
def Env.QuietlyAfter (e e' : Env) : Prop := e.time ≤ e'.time ∧ e'.tx = e.tx

theorem Env.QuietlyAfter.of_eq {e e' : Env} (h : e' = e) : e.QuietlyAfter e' := h ▸ ⟨Nat.le_refl _, rfl⟩

theorem Env.QuietlyAfter.trans {e e' e'' : Env} (h : e.QuietlyAfter e') (h' : e'.QuietlyAfter e'') :
    e.QuietlyAfter e'' := ⟨Nat.le_trans h.1 h'.1, h'.2.trans h.2⟩

theorem Env.quietlyAfter_rxPoll (e : Env) : e.QuietlyAfter e.rxPoll.2 := by
  obtain ⟨-, -, htime, htx⟩ := e.rxPoll_frame
  exact ⟨Nat.le_of_eq htime.symm, htx⟩

theorem quietlyAfter_beginWait (who : Waiter) (e : Byte) (timeout : Time) (s : State) :
    s.env.QuietlyAfter (beginWait who e timeout s).env := by
  obtain ⟨-, -, -, -, -, -, -, -, -, htx, -, -, htime, -⟩ := beginWait_fields who e timeout s
  exact ⟨htime, htx⟩

theorem quietlyAfter_emptyPoll (who : Waiter) (s : State) : s.env.QuietlyAfter (emptyPoll who s).env := by
  rcases emptyPoll_cases who s with ⟨e, he, htx, -, htime⟩ | ⟨e, he, htx, -, htime⟩
  · rw [he]; exact ⟨htime, htx⟩
  · obtain ⟨-, -, -, -, -, henv, -⟩ := waitNone_fields who (s.setEnv e)
    rw [he, henv]; exact ⟨htime, htx⟩

theorem quietlyAfter_exec {i : Instr} {s t : State} (h : exec i s = .next t) : s.env.QuietlyAfter t.env := by
  by_cases hw : ∃ e timeout, i = .waitFrame e timeout
  · obtain ⟨e, timeout, rfl⟩ := hw
    cases (whenIdle_next h).2
    exact quietlyAfter_beginWait .host e timeout (s.setResult none)
  · exact .of_eq (exec_env_same h fun e timeout hi => hw ⟨e, timeout, hi⟩)

theorem quietlyAfter_idleStep {s t : State} (h : idleStep s = .next t) : s.env.QuietlyAfter t.env := by
  rcases idleStep_next h with ⟨-, rfl⟩ | ⟨c, rest, i, -, -, hx⟩
  · exact .of_eq rfl
  · have hq := quietlyAfter_exec hx
    exact hq

theorem quietlyAfter_waitStep {who : Waiter} {s t : State} (h : waitStep who s = .next t) :
    s.env.QuietlyAfter t.env := by
  refine s.env.quietlyAfter_rxPoll.trans ?_
  rcases waitStep_next h with ⟨-, rfl⟩ | ⟨b, u, -, hu, hend⟩
  · exact quietlyAfter_emptyPoll who (s.setEnv s.env.rxPoll.2)
  · have henv : u.env = s.env.rxPoll.2 := (feedByte_same hu).1.env
    rcases hend with ⟨-, hm⟩ | ⟨-, rfl⟩
    · obtain ⟨f, -, rfl⟩ := waitMatched_next hm
      exact .of_eq henv
    · exact .of_eq henv

/-- The start of an attempt writes the request as one event (R193), or fails with nothing written (R196); time does not
go back. -/
theorem sendStep_env {timeout : Time} {s t : State} (h : sendStep timeout s = .next t) :
    s.env.QuietlyAfter t.env ∨
      ∃ bytes, s.req.sequence = some bytes ∧ (s.env.txWrite bytes).QuietlyAfter t.env := by
  rcases sendStep_next h with ⟨-, bytes, hb, rfl⟩ | ⟨-, rfl⟩
  · exact .inr ⟨bytes, hb, quietlyAfter_beginWait (.transact timeout) s.req.cmd timeout
      ((resetParser (s.setEnv (s.env.txWrite bytes))).setAttempt (s.attempt + 1))⟩
  · exact .inl (.of_eq rfl)

/-- Settles O51, by the phase the step starts in: only `C_SEND` writes, and it writes the request. -/
theorem timeAndWritesOnlyGrow : Obligations.TimeAndWritesOnlyGrow := by
  intro s t h
  cases hcs : s.cs with
  | idle =>
    obtain ⟨htime, htx⟩ := quietlyAfter_idleStep (step_idle hcs ▸ h)
    exact ⟨htime, .inl htx⟩
  | send timeout =>
    rcases sendStep_env (step_send hcs ▸ h) with ⟨htime, htx⟩ | ⟨bytes, hb, htime, htx⟩
    · exact ⟨htime, .inl htx⟩
    · exact ⟨htime, .inr ⟨timeout, bytes, rfl, hb, htx⟩⟩
  | wait who =>
    obtain ⟨htime, htx⟩ := quietlyAfter_waitStep (step_wait hcs ▸ h)
    exact ⟨htime, .inl htx⟩

end Sys2Proof.Machine
end

section
/-! PROOFS. The state family (spec/10_state.md): reset values (O1, O2), the invariant through every instruction and every
step for any `CK_STEP` (O3, O4, O59), `ck_acc` after a frame's last byte (O24), who writes which register (O50), the host's
reads (O52). The proofs about instructions go through one inversion, `execBy_next`: everything an instruction can do. -/

namespace Sys2Proof.Machine

open Sys2Proof

variable {ck : Config.CkStep}

/-! ### Power-on reset -/

theorem parserRegs_reset_inv : ParserRegs.reset.Inv ck :=
  ⟨ParserRegs.bufInv_of_held (l := []) .nil (List.forall_mem_nil _) (Nat.zero_le _) rfl,
    ParserRegs.phaseInv_of_hunting rfl rfl, fun hf => absurd hf Bool.false_ne_true⟩

theorem requestRegs_reset_inv : RequestRegs.reset.Inv :=
  ⟨.nil, List.forall_mem_nil _, fun hv => absurd hv Bool.false_ne_true⟩

/-- The invariant holds after power-on whatever `CK_STEP` is: no frame is latched whose checksum could matter. -/
theorem state_reset_inv : State.reset.Inv ck :=
  inv_of_idle parserRegs_reset_inv requestRegs_reset_inv (Nat.zero_le _) rfl

/-- Settles O2: (I1) to (I8) at the reset values. -/
theorem invariantHoldsAtReset : Obligations.InvariantHoldsAtReset := state_reset_inv

theorem exec_parserReset_idle {s : State} (h : s.cs = .idle) :
    exec .parserReset s = .next (deliver (resetParser s) .done) := whenIdle_idle h

/-- Settles O1: the first column of R43 is `State.reset` itself; of the second, `PARSER_RESET` is two register writes. -/
theorem powerOnAndParserResetValues : Obligations.PowerOnAndParserResetValues := by
  refine ⟨?_, ⟨fun i => ?_, rfl, rfl, rfl, rfl⟩, ?_, fun s hcs => ?_⟩
  · decide
  · exact if_neg (Nat.not_lt_zero i)
  · exact (step_idle rfl).trans (idleStep_noCall rfl)
  · exact exec_parserReset_idle hcs

/-! ### The host's reads -/

theorem hostRead_busy {r : HostReg} {s : State} (h : s.cs ≠ .idle) : hostRead r s = .error .busy := by
  cases hcs : s.cs with
  | idle => exact absurd hcs h
  | send timeout => simp only [hostRead, hcs]
  | wait who => simp only [hostRead, hcs]

/-- Settles O52: idle, each register is read as it is, the request registers under their guard `req_valid`. -/
theorem hostReadsTheRegisters : Obligations.HostReadsTheRegisters := by
  refine ⟨fun s hcs => ?_, fun r s hcs => hostRead_busy hcs⟩
  simp only [hostRead, hcs]
  refine ⟨by cases s.req.valid <;> rfl, trivial, by cases s.parser.frameOk <;> rfl, by cases s.status <;> rfl, ?_, ?_⟩
  · intro hv; simp [hv]
  · intro hv; simp [hv]

/-! ### Bytes taken one after another -/

/-- The parser has taken some bytes, possibly none, on the way from the first state to the second. -/
abbrev FedTo (ck : Config.CkStep) : State → State → Prop :=
  Relation.ReflTransGen fun s u => ∃ b, feedByte b s ck = .next u

theorem FedTo.same {s u : State} (h : FedTo ck s u) : SameButParser s u := by
  induction h with
  | refl => exact .refl s
  | tail _ hb ih =>
    obtain ⟨b, hb⟩ := hb
    exact ih.trans (feedByte_same hb).1

theorem FedTo.inv {s u : State} (h : FedTo ck s u) (hs : s.Inv ck) : u.Inv ck := by
  induction h with
  | refl => exact hs
  | tail _ hb ih =>
    obtain ⟨b, hb⟩ := hb
    exact feedByte_inv ih hb

theorem feedAll_next {l : List Byte} {i : Nat} {seen : List Nat} {s t : State} (h : feedAll l i seen s ck = .next t) :
    ∃ u positions, FedTo ck s u ∧ t = deliver u (.readyAt positions) := by
  induction l generalizing i seen s with
  | nil => cases h; exact ⟨s, seen, .refl, rfl⟩
  | cons b l ih =>
    obtain ⟨s1, h1, h2⟩ := afterFeed_next h
    obtain ⟨u, positions, hu, ht⟩ := ih h2
    exact ⟨u, positions, .head ⟨b, h1⟩ hu, ht⟩

/-- A received-byte class that answers a next state is the parser taking a byte: its own, or the marker `RX_MARKER`
stands for. -/
theorem execBy_rx_next {cl : RxClass} {b : Byte} {s t : State} (h : execBy ck (cl.instr b) s = .next t) :
    ∃ b', feedByte b' s ck = .next t := by
  cases cl with
  | marker => exact ⟨Config.marker, (feedByte_eq_execBy (inClass_next h).1).trans h⟩
  | noise => exact ⟨b, (feedByte_eq_execBy (inClass_next h).1).trans h⟩
  | flagsLo => exact ⟨b, (feedByte_eq_execBy (inClass_next h).1).trans h⟩
  | flagsHiOk => exact ⟨b, (feedByte_eq_execBy (inClass_next h).1).trans h⟩
  | flagsHiBad => exact ⟨b, (feedByte_eq_execBy (inClass_next h).1).trans h⟩
  | body => exact ⟨b, (feedByte_eq_execBy (inClass_next h).1).trans h⟩
  | lastOk => exact ⟨b, (feedByte_eq_execBy (inClass_next h).1).trans h⟩
  | lastBad => exact ⟨b, (feedByte_eq_execBy (inClass_next h).1).trans h⟩

/-- The last byte of a frame, good or bad, leaves the covered bytes' checksum in `ck_acc` (log 10). -/
theorem feedByte_last_ckAcc {b ckLo : Byte} {covered : List Byte} {s t : State} (hi : s.parser.Inv ck)
    (hp : s.parser.ps = .accumulating) (hr : s.parser.rem = 1) (hh : s.parser.held = some (covered ++ [ckLo]))
    (h : feedByte b s ck = .next t) : t.ckAcc = checksum covered ck := by
  obtain ⟨l, cl, u, hl, -, hu, hc⟩ := feedByte_cases hi b
  obtain rfl : u = t := Host.Outcome.next.inj (hu.symm.trans h)
  have hlc : l = covered ++ [ckLo] := Option.some.inj (hl.symm.trans hh)
  cases hc with
  | lastOk m lo hi' cmd mid c0 _ _ hl' _ => rw [(List.append_inj' (hlc.symm.trans hl') rfl).1]; rfl
  | lastBad m lo hi' cmd mid c0 _ _ hl' _ => rw [(List.append_inj' (hlc.symm.trans hl') rfl).1]; rfl
  | body _ hr' => omega
  | noise hp' => exact absurd (hp.symm.trans hp') (by decide)
  | marker hp' => exact absurd (hp.symm.trans hp') (by decide)
  | flagsLo hp' => exact absurd (hp.symm.trans hp') (by decide)
  | flagsHiOk _ hp' => exact absurd (hp.symm.trans hp') (by decide)
  | flagsHiBad _ hp' => exact absurd (hp.symm.trans hp') (by decide)

/-- Settles O24: of the eight rows only the two last-byte rows fit `ACCUMULATING` with `rem = 1`, and both verify. -/
theorem lastByteLeavesTheChecksumInTheAccumulator : Obligations.LastByteLeavesTheChecksumInTheAccumulator := by
  intro b ckLo covered cl s t hi hp hr hh h
  obtain ⟨b', hb⟩ := execBy_rx_next ((execBy_default _ _).trans h)
  exact feedByte_last_ckAcc hi.1 hp hr hh hb

/-! ### What an instruction can do -/

/-- The instructions by which the parser takes bytes: the received-byte classes, `FEED`, the two frame rows. -/
inductive TakesBytes : Instr → Prop
  | rx (cl : RxClass) (b : Byte) : TakesBytes (cl.instr b)
  | feed (b : Byte) : TakesBytes (.feed b)
  | frameRead (cmd : Byte) (reserved : BitVec 5) (field : BitVec 10) (tail : List Byte) :
      TakesBytes (.frameRead cmd reserved field tail)
  | frameWrite (cmd : Byte) (reserved : BitVec 5) (field : BitVec 10) (tail : List Byte) :
      TakesBytes (.frameWrite cmd reserved field tail)

/-- Everything an instruction that answers a next state can do, with that state in full. -/
inductive ExecNext (ck : Config.CkStep) (s : State) : Instr → State → Prop
  | takesBytes {i : Instr} (hi : TakesBytes i) {u : State} (hu : FedTo ck s u) (r : Option OpResult) :
      ExecNext ck s i (u.setResult r)
  | parserReset (hcs : s.cs = .idle) : ExecNext ck s .parserReset (deliver (resetParser s) .done)
  | frameGet (hcs : s.cs = .idle) {f : Frame} (hf : latchedFrame s.parser = .ok f) :
      ExecNext ck s .frameGet (deliver s (.frame f))
  | checksum (hcs : s.cs = .idle) (bytes : List Byte) :
      ExecNext ck s (.checksum bytes)
        (deliver (s.setCkAcc (Machine.checksum bytes ck)) (.checksum (Machine.checksum bytes ck)))
  | encode (hcs : s.cs = .idle) (cmd : Byte) (isWrite : Bool) {payload : List Byte}
      (hl : payload.length ≤ Config.payloadMax) :
      ExecNext ck s (.encode cmd isWrite payload) (deliver s (.bytes (encodeFrame cmd isWrite payload ck)))
  | reqLoad (hcs : s.cs = .idle) (cmd : Byte) {bytes : List Byte} (hl : bytes.length ≤ Config.reqBytes) :
      ExecNext ck s (.reqLoad cmd bytes) (deliver (s.setReq
        { valid := true, cmd := cmd, len := bytes.length, bytes := s.req.bytes.writeSeq 0 bytes }) .done)
  | waitFrame (hcs : s.cs = .idle) (expect : Byte) (timeout : Time) :
      ExecNext ck s (.waitFrame expect timeout) (beginWait .host expect timeout (s.setResult none))
  | transactStarts (hcs : s.cs = .idle) (timeout : Time) (hv : s.req.valid = true) :
      ExecNext ck s (.transact timeout) (((s.setAttempt 0).setCs (.send timeout)).setResult none)
  | transactFails (hcs : s.cs = .idle) (timeout : Time) (hv : s.req.valid = false) :
      ExecNext ck s (.transact timeout) (raise (s.setAttempt 0) .protocolState)

theorem ExecNext.of_feedByte {i : Instr} (hi : TakesBytes i) {b : Byte} {s t : State} (h : feedByte b s ck = .next t) :
    ExecNext ck s i t := .takesBytes hi (.single ⟨b, h⟩) t.result

theorem ExecNext.of_feedAll {i : Instr} (hi : TakesBytes i) {l : List Byte} {s t : State}
    (h : whenIdle s (feedAll l 0 [] s ck) = .next t) : ExecNext ck s i t := by
  obtain ⟨u, positions, hu, rfl⟩ := feedAll_next (whenIdle_next h).2
  exact .takesBytes hi hu _

theorem execBy_next {i : Instr} {s t : State} (h : execBy ck i s = .next t) : ExecNext ck s i t := by
  have rx : ∀ cl b, execBy ck (RxClass.instr cl b) s = .next t → ExecNext ck s (cl.instr b) t := fun cl b hx => by
    obtain ⟨b', hb⟩ := execBy_rx_next hx
    exact .of_feedByte (.rx cl b) hb
  cases i with
  | frameRead cmd reserved field tail => exact .of_feedAll (.frameRead ..) h
  | frameWrite cmd reserved field tail => exact .of_feedAll (.frameWrite ..) h
  | rxNoise b => exact rx .noise b h
  | rxMarker => exact rx .marker Config.marker h
  | rxFlagsLo b => exact rx .flagsLo b h
  | rxFlagsHiOk b => exact rx .flagsHiOk b h
  | rxFlagsHiBad b => exact rx .flagsHiBad b h
  | rxBody b => exact rx .body b h
  | rxLastOk b => exact rx .lastOk b h
  | rxLastBad b => exact rx .lastBad b h
  | parserReset =>
    obtain ⟨hcs, hk⟩ := whenIdle_next h
    cases hk
    exact .parserReset hcs
  | feed b =>
    obtain ⟨u, hu, hd⟩ := afterFeed_next (whenIdle_next h).2
    cases hd
    exact .takesBytes (.feed b) (.single ⟨b, hu⟩) _
  | frameGet =>
    obtain ⟨hcs, hk⟩ := whenIdle_next h
    split at hk <;> cases hk
    exact .frameGet hcs ‹_›
  | checksum bytes =>
    obtain ⟨hcs, hk⟩ := whenIdle_next h
    cases hk
    exact .checksum hcs bytes
  | encode cmd isWrite payload =>
    obtain ⟨hcs, hk⟩ := whenIdle_next h
    split at hk <;> cases hk
    exact .encode hcs cmd isWrite ‹_›
  | reqLoad cmd bytes =>
    obtain ⟨hcs, hk⟩ := whenIdle_next h
    split at hk <;> cases hk
    exact .reqLoad hcs cmd ‹_›
  | waitFrame expect timeout =>
    obtain ⟨hcs, hk⟩ := whenIdle_next h
    cases hk
    exact .waitFrame hcs expect timeout
  | transact timeout =>
    obtain ⟨hcs, hk⟩ := whenIdle_next h
    split at hk <;> cases hk
    · exact .transactStarts hcs timeout ‹_›
    · exact .transactFails hcs timeout (Bool.not_eq_true _ ▸ ‹_›)

theorem exec_next {i : Instr} {s t : State} (h : exec i s = .next t) : ExecNext Config.ckStep s i t :=
  execBy_next ((execBy_default i s).trans h)

/-! ### The invariant, instruction by instruction -/

theorem requestRegs_load_inv {r : RequestRegs} (h : r.Inv) (cmd : Byte) {bytes : List Byte}
    (hl : bytes.length ≤ Config.reqBytes) :
    RequestRegs.Inv { valid := true, cmd := cmd, len := bytes.length, bytes := r.bytes.writeSeq 0 bytes } := by
  obtain ⟨hwf, hin, -⟩ := h
  refine ⟨Memory.writeSeq_wf hwf 0 bytes, Memory.writeSeq_within hin ((Nat.zero_add _).trans_le hl), fun _ => ⟨hl, ?_⟩⟩
  exact Option.isSome_iff_exists.mpr ⟨bytes, Memory.readSeq_writeSeq _ 0 bytes⟩

theorem ExecNext.inv {i : Instr} {s t : State} (h : ExecNext ck s i t) (hs : s.Inv ck) : t.Inv ck := by
  have ⟨hparser, hreq, hattempt, _⟩ := hs
  cases h with
  | takesBytes _ hu r => exact hu.inv hs
  | parserReset hcs => exact inv_of_idle (resetParser_inv hparser) hreq hattempt hcs
  | frameGet => exact hs
  | checksum => exact hs
  | encode => exact hs
  | reqLoad hcs cmd hl => exact inv_of_idle hparser (requestRegs_load_inv hreq cmd hl) hattempt hcs
  | waitFrame _ expect timeout => 
    exact beginWait_inv (s := s.setResult none) hparser hreq hattempt .host expect timeout fun _ ht => nomatch ht
  | transactStarts _ _ hv => exact ⟨hparser, hreq, Nat.zero_le _, hv⟩
  | transactFails => exact inv_of_idle hparser hreq (Nat.zero_le _) rfl

/-- Settles O3: the invariant through each thing an instruction can do. -/
theorem execKeepsInvariant : Obligations.ExecKeepsInvariant := fun _ _ _ hs h => (exec_next h).inv hs

/-! ### The invariant, phase by phase -/

/-- The idle block, whatever runs its instructions: it stays as it is for want of a call, or runs its next one. -/
theorem idleStep_run_next {run : Instr → State → Out} {s t : State} (h : idleStep s run = .next t) :
    t = s ∨ ∃ i rest, run i (s.setHost rest) = .next t := by
  unfold idleStep at h
  split at h
  · cases h; exact .inl rfl
  · split at h
    · exact .inr ⟨_, _, h⟩
    · cases h

theorem idleStep_inv {s t : State} (hs : s.Inv ck) (h : idleStep s (execBy ck) = .next t) : t.Inv ck := by
  rcases idleStep_run_next h with rfl | ⟨i, rest, hx⟩
  · exact hs
  · exact (execBy_next hx).inv (s := s.setHost rest) hs

/-- The start of an attempt: it is counted, below the budget of 4, and waits for the loaded request's command. -/
theorem sendStep_inv {timeout : Time} {s t : State} (hs : s.Inv ck) (hcs : s.cs = .send timeout)
    (h : sendStep timeout s = .next t) : t.Inv ck := by
  obtain ⟨hparser, hreq, hattempt, hphase⟩ := hs
  have hv : s.req.valid = true := by simpa [State.phaseInv, hcs] using hphase
  rcases sendStep_next h with ⟨hlt, bytes, -, rfl⟩ | ⟨-, rfl⟩
  · refine beginWait_inv
      (s := (resetParser (s.setEnv (s.env.txWrite bytes))).setAttempt (s.attempt + 1))
      (resetParser_inv (s := s.setEnv (s.env.txWrite bytes)) hparser) hreq hlt _ _ _ fun t ht => ?_
    exact ⟨hv, Nat.le_add_left 1 _, rfl, Waiter.transact.inj ht⟩
  · exact inv_of_idle hparser hreq hattempt rfl

theorem emptyPoll_inv {who : Waiter} {s : State} (hs : s.Inv ck) (hcs : s.cs = .wait who) :
    (emptyPoll who s).Inv ck := by
  rcases emptyPoll_cases who s with ⟨e, he, -⟩ | ⟨e, he, -⟩
  · rw [he]; exact hs
  · rw [he]; exact waitNone_inv (s := s.setEnv e) hs hcs

theorem waitStep_inv {who : Waiter} {s t : State} (hs : s.Inv ck) (hcs : s.cs = .wait who)
    (h : waitStep who s ck = .next t) : t.Inv ck := by
  rcases waitStep_next h with ⟨-, rfl⟩ | ⟨b, u, -, hu, hend⟩
  · exact emptyPoll_inv (s := s.setEnv s.env.rxPoll.2) hs hcs
  · have hui : u.Inv ck := feedByte_inv (s := s.setEnv s.env.rxPoll.2) hs hu
    rcases hend with ⟨-, hm⟩ | ⟨-, rfl⟩
    · obtain ⟨f, -, rfl⟩ := waitMatched_next hm
      obtain ⟨hparser, hreq, hattempt, -⟩ := hui
      exact inv_of_idle hparser hreq hattempt rfl
    · exact hui

theorem stepBy_inv {s t : State} (hs : s.Inv ck) (h : stepBy ck s = .next t) : t.Inv ck := by
  cases hcs : s.cs with
  | idle => rw [stepBy, hcs] at h; exact idleStep_inv hs h
  | send timeout => rw [stepBy, hcs] at h; exact sendStep_inv hs hcs h
  | wait who => rw [stepBy, hcs] at h; exact waitStep_inv hs hcs h

/-- Settles O59, by the phase the step starts in. -/
theorem stepKeepsInvariantForAnyStep : Obligations.StepKeepsInvariantForAnyStep := fun _ _ _ => stepBy_inv

/-- Settles O4: the machine is the one with the default `CK_STEP` supplied. -/
theorem stepKeepsInvariant : Obligations.StepKeepsInvariant := fun s _ hs h => stepBy_inv hs ((stepBy_default s).trans h)

/-! ### Who writes which registers -/

section BeginWait

variable (who : Waiter) (e : Byte) (timeout : Time) (s : State)

@[simp] theorem beginWait_parser : (beginWait who e timeout s).parser = s.parser := by unfold beginWait; split <;> rfl
@[simp] theorem beginWait_ckAcc : (beginWait who e timeout s).ckAcc = s.ckAcc := by unfold beginWait; split <;> rfl
@[simp] theorem beginWait_req : (beginWait who e timeout s).req = s.req := by unfold beginWait; split <;> rfl
@[simp] theorem beginWait_attempt : (beginWait who e timeout s).attempt = s.attempt := by unfold beginWait; split <;> rfl
@[simp] theorem beginWait_status : (beginWait who e timeout s).status = s.status := by unfold beginWait; split <;> rfl
@[simp] theorem beginWait_feedOut : (beginWait who e timeout s).feedOut = s.feedOut := by unfold beginWait; split <;> rfl

end BeginWait

/-- The request registers are `REQ_LOAD`'s (R33). -/
theorem ExecNext.req_same {i : Instr} {s t : State} (h : ExecNext ck s i t) (hi : ∀ c l, i ≠ .reqLoad c l) :
    t.req = s.req := by
  cases h with
  | takesBytes _ hu r => obtain ⟨hreq, -⟩ := hu.same; exact hreq
  | reqLoad => exact absurd rfl (hi _ _)
  | waitFrame => simp
  | _ => rfl

/-- `status` and `attempt` are `TRANSACT`'s (R34, R37). -/
theorem ExecNext.status_attempt_same {i : Instr} {s t : State} (h : ExecNext ck s i t)
    (hi : ∀ timeout, i ≠ .transact timeout) : t.status = s.status ∧ t.attempt = s.attempt := by
  cases h with
  | takesBytes _ hu r => obtain ⟨-, hattempt, -, -, hstatus, -⟩ := hu.same; exact ⟨hstatus, hattempt⟩
  | waitFrame => simp
  | transactStarts => exact absurd rfl (hi _)
  | transactFails => exact absurd rfl (hi _)
  | _ => exact ⟨rfl, rfl⟩

/-- The reader's registers and the clock are `WAIT_FRAME`'s (R35, R180). -/
theorem ExecNext.reader_env_same {i : Instr} {s t : State} (h : ExecNext ck s i t)
    (hi : ∀ e timeout, i ≠ .waitFrame e timeout) : t.reader = s.reader ∧ t.env = s.env := by
  cases h with
  | takesBytes _ hu r => obtain ⟨-, -, hreader, -, -, henv, -⟩ := hu.same; exact ⟨hreader, henv⟩
  | waitFrame => exact absurd rfl (hi _ _)
  | _ => exact ⟨rfl, rfl⟩

/-- No instruction writes to the transport, polls it, or takes a call from the host. -/
theorem ExecNext.transport_host_same {i : Instr} {s t : State} (h : ExecNext ck s i t) :
    t.env.tx = s.env.tx ∧ t.env.polls = s.env.polls ∧ t.env.pollCount = s.env.pollCount ∧ t.host = s.host := by
  cases h with
  | takesBytes _ hu r =>
    obtain ⟨-, -, -, -, -, henv, hhost, -⟩ := hu.same
    exact ⟨congrArg Env.tx henv, congrArg Env.polls henv, congrArg Env.pollCount henv, hhost⟩
  | waitFrame _ e timeout =>
    obtain ⟨-, -, -, -, -, -, hhost, -, -, htx, hpolls, hcount, -⟩ :=
      beginWait_fields .host e timeout (s.setResult none)
    exact ⟨htx, hpolls, hcount, hhost⟩
  | _ => exact ⟨rfl, rfl, rfl, rfl⟩

/-- The frame buffer, the latched frame and the last return value are the parser's path's (R169). -/
theorem ExecNext.frame_same {i : Instr} {s t : State} (h : ExecNext ck s i t) (hi : ¬TakesBytes i) :
    t.parser.buf = s.parser.buf ∧ t.parser.wrIdx = s.parser.wrIdx ∧ t.parser.cmdLatched = s.parser.cmdLatched ∧
      t.parser.frameOk = s.parser.frameOk ∧ t.feedOut = s.feedOut := by
  cases h with
  | takesBytes htb => exact absurd htb hi
  | waitFrame => simp
  | _ => exact ⟨rfl, rfl, rfl, rfl, rfl⟩

/-- Beside the parser's path only `PARSER_RESET` writes parser registers (R160). -/
theorem ExecNext.parser_same {i : Instr} {s t : State} (h : ExecNext ck s i t) (hi : ¬TakesBytes i)
    (hr : i ≠ .parserReset) : t.parser = s.parser := by
  cases h with
  | takesBytes htb => exact absurd htb hi
  | parserReset => exact absurd rfl hr
  | waitFrame => simp
  | _ => rfl

/-- Beside the parser's path only `CHECKSUM` writes `ck_acc`, `ENCODE` not (log 10). -/
theorem ExecNext.ckAcc_same {i : Instr} {s t : State} (h : ExecNext ck s i t) (hi : ¬TakesBytes i)
    (hc : ∀ l, i ≠ .checksum l) : t.ckAcc = s.ckAcc := by
  cases h with
  | takesBytes htb => exact absurd htb hi
  | checksum => exact absurd rfl (hc _)
  | waitFrame => simp
  | _ => rfl

/-- Settles O50: one clause for each owner of registers. -/
theorem execWritesOnlyItsOwnRegisters : Obligations.ExecWritesOnlyItsOwnRegisters := by
  intro i s t h
  have hx := exec_next h
  refine ⟨hx.req_same, hx.status_attempt_same, hx.reader_env_same, hx.transport_host_same,
    fun hrx hfeed hread hwrite => ?_⟩
  have htb : ¬TakesBytes i := by
    rintro (⟨cl, b⟩ | b | ⟨c, r, f, l⟩ | ⟨c, r, f, l⟩)
    · exact hrx cl b rfl
    · exact hfeed b rfl
    · exact hread c r f l rfl
    · exact hwrite c r f l rfl
  obtain ⟨hbuf, hwr, hcmd, hok, hout⟩ := hx.frame_same htb
  exact ⟨hbuf, hwr, hcmd, hok, hout, hx.parser_same htb, hx.ckAcc_same htb⟩

end Sys2Proof.Machine
end

section
/-! PROOFS. The memory family (spec/20_memory.md): the byte spaces (O5), and what a received-byte class stores (O53). O53
goes through one inversion, `execBy_rx_writes`: what each class writes, whatever state it starts in. -/

namespace Sys2Proof.Machine

open Sys2Proof

/-! ### Byte spaces -/

theorem Memory.read_write (m : Memory) (k j : Nat) (v : Byte) :
    (m.write k v).read j = if j = k then some v else m.read j := by
  split
  · subst j; exact m.read_write_same k v
  · exact m.read_write_other v ‹_›

theorem Memory.read_writeSeq_above (m : Memory) {k j : Nat} (l : List Byte) (h : k + l.length ≤ j) :
    (m.writeSeq k l).read j = m.read j := by
  induction l generalizing m k with
  | nil => rfl
  | cons v l ih =>
    rw [List.length_cons] at h
    rw [Memory.writeSeq, ih _ (by omega), Memory.read_write_other _ _ (by omega)]

/-- Settles O5: the laws of one write and of a sequence written byte by byte. -/
theorem memoryReadsWhatWasWritten : Obligations.MemoryReadsWhatWasWritten :=
  ⟨Memory.read_write, fun _ k v h => Memory.write_wf h k v, Memory.readSeq_writeSeq, fun m _ _ l hj =>
    hj.elim (m.read_writeSeq_below l) (m.read_writeSeq_above l)⟩

/-! ### What a received-byte class stores -/

/-- What a received-byte class that answers a next state writes. Beside noise and marker every class appends its byte;
what else it writes is `ps` and `rem`, and at a frame's last byte `ck_acc` and the latched frame. The values it gives
`ps` and `rem`, `ck_acc` and `cmd_latched` are left open: under the invariants `FeedCase` has them. -/
inductive RxWrites (b : Byte) (s : State) : RxClass → State → Prop
  | noise : RxWrites b s .noise (s.setFeedOut .incomplete)
  | marker : RxWrites b s .marker ((s.setParser
      { s.parser.clear.dropFrame.append Config.marker with ps := .gotMarker }).setFeedOut .incomplete)
  | appends {cl : RxClass} (hcl : cl ∈ [RxClass.flagsLo, .flagsHiOk, .flagsHiBad, .body])
      (hw : s.parser.wrIdx < Config.bufBytes) (x : ParserState) (n : Nat) :
      RxWrites b s cl ((s.setParser { s.parser.append b with ps := x, rem := n }).setFeedOut .incomplete)
  | lastOk (hw : s.parser.wrIdx < Config.bufBytes) (v : U16) (cmd : Byte) :
      RxWrites b s .lastOk (((s.setParser { s.parser.append b with
        ps := .hunting, rem := 0, cmdLatched := cmd, frameOk := true }).setCkAcc v).setFeedOut .frameReady)
  | lastBad (hw : s.parser.wrIdx < Config.bufBytes) (v : U16) :
      RxWrites b s .lastBad (((s.setParser { s.parser.append b with
        ps := .hunting, rem := 0 }).setCkAcc v).setFeedOut .incomplete)

theorem execBy_rx_writes {ck : Config.CkStep} {cl : RxClass} {b : Byte} {s t : State}
    (h : execBy ck (cl.instr b) s = .next t) : RxWrites b s cl t := by
  cases cl with
  | noise =>
    cases incomplete_next (inClass_next h).2
    exact .noise
  | marker =>
    cases incomplete_next (appendThen_next (inClass_next h).2).2
    exact .marker
  | flagsLo =>
    obtain ⟨hw, hk⟩ := appendThen_next (inClass_next h).2
    cases incomplete_next hk
    exact .appends (by decide) hw .gotFlagsLow s.parser.rem
  | flagsHiOk =>
    obtain ⟨hw, hk⟩ := appendThen_next (inClass_next h).2
    obtain ⟨lo, -, hk⟩ := readThen_next hk
    obtain ⟨hi, -, hk⟩ := readThen_next hk
    cases incomplete_next hk
    exact .appends (by decide) hw .accumulating (flagsCount (le16 lo hi))
  | flagsHiBad =>
    obtain ⟨hw, hk⟩ := appendThen_next (inClass_next h).2
    cases incomplete_next hk
    exact .appends (by decide) hw .hunting 0
  | body =>
    obtain ⟨hw, hk⟩ := appendThen_next (inClass_next h).2
    cases incomplete_next hk
    exact .appends (by decide) hw s.parser.ps (s.parser.rem - 1)
  | lastOk =>
    obtain ⟨hw, hk⟩ := appendThen_next (inClass_next h).2
    obtain ⟨v, -, hk⟩ := verifyThen_next hk
    obtain ⟨cmd, -, hk⟩ := readThen_next hk
    cases hk
    exact .lastOk hw v cmd
  | lastBad =>
    obtain ⟨hw, hk⟩ := appendThen_next (inClass_next h).2
    obtain ⟨v, -, hk⟩ := verifyThen_next hk
    cases incomplete_next hk
    exact .lastBad hw v

theorem RxWrites.noise_parser {b : Byte} {s t : State} (h : RxWrites b s .noise t) : t.parser = s.parser := by
  cases h with
  | noise => rfl
  | appends hcl => exact absurd hcl (by decide)

theorem RxWrites.marker_buf {b : Byte} {s t : State} (h : RxWrites b s .marker t) :
    t.parser.buf = s.parser.buf.write 0 Config.marker := by
  cases h with
  | marker => rfl
  | appends hcl => exact absurd hcl (by decide)

/-- `Append(b)` (R66) at the heart of every class beside noise and marker. -/
theorem RxWrites.appended {cl : RxClass} {b : Byte} {s t : State} (h : RxWrites b s cl t) (hn : cl ≠ .noise)
    (hm : cl ≠ .marker) : s.parser.wrIdx < Config.bufBytes ∧ t.parser.wrIdx = s.parser.wrIdx + 1 ∧
      t.parser.buf = s.parser.buf.write s.parser.wrIdx b := by
  cases h with
  | noise => exact absurd rfl hn
  | marker => exact absurd rfl hm
  | appends _ hw => exact ⟨hw, rfl, rfl⟩
  | lastOk hw => exact ⟨hw, rfl, rfl⟩
  | lastBad hw => exact ⟨hw, rfl, rfl⟩

theorem RxWrites.cmdLatched_same {cl : RxClass} {b : Byte} {s t : State} (h : RxWrites b s cl t) (hcl : cl ≠ .lastOk) :
    t.parser.cmdLatched = s.parser.cmdLatched := by
  cases h with
  | lastOk => exact absurd rfl hcl
  | _ => rfl

theorem RxWrites.ckAcc_same {cl : RxClass} {b : Byte} {s t : State} (h : RxWrites b s cl t) (hok : cl ≠ .lastOk)
    (hbad : cl ≠ .lastBad) : t.ckAcc = s.ckAcc := by
  cases h with
  | lastOk => exact absurd rfl hok
  | lastBad => exact absurd rfl hbad
  | _ => rfl

/-- Settles O53: the parser's registers and `ck_acc` from what each class writes, the rest is the frame of a received
byte. -/
theorem receivedByteStoresOnlyAtTheWriteIndex : Obligations.ReceivedByteStoresOnlyAtTheWriteIndex := by
  intro cl b s t h
  have hx : RxWrites b s cl t := execBy_rx_writes ((execBy_default _ _).trans h)
  refine ⟨?_, ?_, fun hn hm => ?_, hx.cmdLatched_same, hx.ckAcc_same, (exec_rx_same h).1⟩
  · rintro rfl
    exact hx.noise_parser
  · rintro rfl a
    rw [hx.marker_buf, Memory.read_write]
  · obtain ⟨hw, hidx, hbuf⟩ := hx.appended hn hm
    exact ⟨hw, hidx, fun a => by rw [hbuf, Memory.read_write]⟩

end Sys2Proof.Machine
end

section
/-! PROOFS. The encoding family, its words (spec/30_encoding.md R91, R104, R105, R107): decoder and encoder invert each
other (O6, O7), the table of R104 gives every byte one class (O9) and every other class is refused (O25), words of the
opcode table (O8), the pseudo-operations (O54). What O6 and O7 say of the received-byte classes is one equivalence in two
halves, `classify_of_fits` and `classify_eq_ok`: the decoder's class is the one whose instruction fits the context. -/

namespace Sys2Proof

open Sys2Proof.Machine

/-! ### Keys -/

/-- The parser state in which a class's row of R104 applies. -/
def RxClass.state : RxClass → ParserState
  | .noise => .hunting
  | .marker => .hunting
  | .flagsLo => .gotMarker
  | .flagsHiOk => .gotFlagsLow
  | .flagsHiBad => .gotFlagsLow
  | .body => .accumulating
  | .lastOk => .accumulating
  | .lastBad => .accumulating

/-- `RX_MARKER` carries no byte: it is the class of the marker alone. -/
def RxClass.admits (cl : RxClass) (b : Byte) : Prop := cl = .marker → b = Config.marker

theorem encode_instr {cl : RxClass} {b : Byte} (h : cl.admits b) : encode (cl.instr b) = .key (rxKey cl.state b) := by
  cases cl with
  | marker => rw [h rfl]; rfl
  | _ => rfl

/-! The conditions of R104's table on the context, as propositions. -/

section Fits

variable {c : RxContext} {b : Byte}

theorem fits_rxFlagsHiOk_iff : (Instr.rxFlagsHiOk b).fits c = true ↔
    ∃ lo, c.flagsLo = some lo ∧ countInRange (flagsCount (le16 lo b)) = true := by
  cases h : c.flagsLo <;> simp [Instr.fits, h]

theorem fits_rxFlagsHiBad_iff : (Instr.rxFlagsHiBad b).fits c = true ↔
    ∃ lo, c.flagsLo = some lo ∧ countInRange (flagsCount (le16 lo b)) = false := by
  cases h : c.flagsLo <;> simp [Instr.fits, h]

theorem fits_rxLastOk_iff : (Instr.rxLastOk b).fits c = true ↔
    c.rem = 1 ∧ ∃ lo ck, c.ckLo = some lo ∧ c.ckCalc = some ck ∧ le16 lo b = ck := by
  cases hlo : c.ckLo <;> cases hck : c.ckCalc <;> simp [Instr.fits, hlo, hck]
  exact fun _ => eq_comm

theorem fits_rxLastBad_iff : (Instr.rxLastBad b).fits c = true ↔
    c.rem = 1 ∧ ∃ lo ck, c.ckLo = some lo ∧ c.ckCalc = some ck ∧ le16 lo b ≠ ck := by
  cases hlo : c.ckLo <;> cases hck : c.ckCalc <;> simp [Instr.fits, hlo, hck]

end Fits

/-- A well-formed class that fits the context is the class of its byte in its parser state. -/
theorem classify_of_fits {c : RxContext} {b : Byte} {cl : RxClass} (ha : cl.admits b)
    (hw : (cl.instr b).wellFormed = true) (hf : (cl.instr b).fits c = true) : classify c cl.state b = .ok cl := by
  cases cl with
  | noise => exact if_neg (of_decide_eq_true hw)
  | marker => exact if_pos (ha rfl)
  | flagsLo => rfl
  | flagsHiOk =>
    obtain ⟨lo, hlo, hc⟩ := fits_rxFlagsHiOk_iff.mp hf
    simp [classify, RxClass.state, hlo, hc]
  | flagsHiBad =>
    obtain ⟨lo, hlo, hc⟩ := fits_rxFlagsHiBad_iff.mp hf
    simp [classify, RxClass.state, hlo, hc]
  | body => exact if_pos (of_decide_eq_true hf)
  | lastOk =>
    obtain ⟨hr, lo, ck, hlo, hck, he⟩ := fits_rxLastOk_iff.mp hf
    simp [classify, RxClass.state, hr, hlo, hck, he]
  | lastBad =>
    obtain ⟨hr, lo, ck, hlo, hck, he⟩ := fits_rxLastBad_iff.mp hf
    simp [classify, RxClass.state, hr, hlo, hck, he]

/-- The class the decoder gives a byte is well formed, fits the context, and has its row in that parser state. -/
theorem classify_eq_ok {c : RxContext} {ps : ParserState} {b : Byte} {cl : RxClass} (h : classify c ps b = .ok cl) :
    cl.state = ps ∧ cl.admits b ∧ (cl.instr b).wellFormed = true ∧ (cl.instr b).fits c = true := by
  unfold classify at h
  split at h
  · split at h <;> cases h
    · exact ⟨rfl, fun _ => ‹_›, rfl, rfl⟩
    · exact ⟨rfl, nofun, decide_eq_true ‹_›, rfl⟩
  · cases h
    exact ⟨rfl, nofun, rfl, rfl⟩
  · split at h
    · cases h
    · rename_i lo hlo
      split at h <;> cases h
      · exact ⟨rfl, nofun, rfl, fits_rxFlagsHiOk_iff.mpr ⟨lo, hlo, ‹_›⟩⟩
      · exact ⟨rfl, nofun, rfl, fits_rxFlagsHiBad_iff.mpr ⟨lo, hlo, Bool.eq_false_iff.mpr ‹_›⟩⟩
  · split_ifs at h with hbody hr
    · cases h
      exact ⟨rfl, nofun, rfl, decide_eq_true hbody⟩
    · split at h
      · rename_i lo ck hlo hck
        split at h <;> cases h
        · exact ⟨rfl, nofun, rfl, fits_rxLastOk_iff.mpr ⟨hr, lo, ck, hlo, hck, ‹_›⟩⟩
        · exact ⟨rfl, nofun, rfl, fits_rxLastBad_iff.mpr ⟨hr, lo, ck, hlo, hck, ‹_›⟩⟩
      · cases h

/-! ### Decoding a key -/

theorem parserStateOf_eq_some {code : BitVec 3} {ps : ParserState} (h : parserStateOf code = some ps) :
    code = ps.code := by
  unfold parserStateOf at h
  split_ifs at h <;> cases h <;> assumption

/-- A key is its two fields. -/
theorem rxKey_keyByte {k : BitVec 11} {ps : ParserState} (h : keyCode k = ps.code) : rxKey ps (keyByte k) = k := by
  have hk := congrArg BitVec.toNat h
  have := k.isLt
  apply BitVec.eq_of_toNat_eq
  rw [keyCode, BitVec.toNat_setWidth, BitVec.toNat_ushiftRight, Nat.shiftRight_eq_div_pow] at hk
  rw [rxKey_toNat, keyByte, BitVec.toNat_setWidth]
  omega

theorem decodeKey_rxKey {c : RxContext} {ps : ParserState} {b : Byte} {cl : RxClass}
    (h : classify c ps b = .ok cl) : decodeKey c (rxKey ps b) = .ok (cl.instr b) := by
  simp only [decodeKey, rxKey_code, rxKey_byte, parserStateOf_code, h]

theorem decodeKey_eq_ok {c : RxContext} {k : BitVec 11} {i : Instr} (h : decodeKey c k = .ok i) :
    ∃ ps b cl, k = rxKey ps b ∧ classify c ps b = .ok cl ∧ i = cl.instr b := by
  unfold decodeKey at h
  split at h
  · cases h
  · rename_i ps hps
    split at h <;> cases h
    exact ⟨ps, keyByte k, _, (rxKey_keyByte (parserStateOf_eq_some hps)).symm, ‹_›, rfl⟩

/-! ### Frames -/

/-- The instruction of a frame row, by its write bit (R91). -/
def frameInstr (w : Bool) (cmd : Byte) (r : BitVec 5) (field : BitVec 10) (tail : List Byte) : Instr :=
  if w then .frameWrite cmd r field tail else .frameRead cmd r field tail

theorem encode_frameInstr (w : Bool) (cmd : Byte) (r : BitVec 5) (field : BitVec 10) (tail : List Byte) :
    encode (frameInstr w cmd r field tail) = .call (.frame (frameBytes w cmd r field tail)) := by
  cases w <;> rfl

theorem wellFormed_frameInstr (w : Bool) (cmd : Byte) (r : BitVec 5) (field : BitVec 10) (tail : List Byte) :
    (frameInstr w cmd r field tail).wellFormed = tailFits field tail := by
  cases w <;> rfl

theorem decodeFrame_frameBytes (w : Bool) (cmd : Byte) (r : BitVec 5) {field : BitVec 10} {tail : List Byte}
    (h : tailFits field tail = true) :
    decodeFrame (frameBytes w cmd r field tail) = .ok (frameInstr w cmd r field tail) := by
  simp only [frameBytes, List.cons_append, List.nil_append, decodeFrame, le16_lo8_hi8, flagsField_mkFlags,
    flagsWrite_mkFlags, flagsReserved_mkFlags, h, if_true]
  cases w <;> rfl

/-- The frame of the fields that a header's bytes hold is those bytes (R91, R92). -/
theorem frameBytes_fields (lo hi cmd : Byte) (tail : List Byte) :
    frameBytes (flagsWrite (le16 lo hi)) cmd (flagsReserved (le16 lo hi)) (flagsField (le16 lo hi)) tail =
      Config.marker :: lo :: hi :: cmd :: tail := by
  rw [frameBytes, mkFlags_fields, lo8_le16, hi8_le16]; rfl

/-- Bytes read as a frame are the frame of their own fields (R90, R91). -/
theorem decodeFrame_eq_ok {bytes : List Byte} {i : Instr} (h : decodeFrame bytes = .ok i) :
    ∃ w cmd r field tail, bytes = frameBytes w cmd r field tail ∧ tailFits field tail = true ∧
      i = frameInstr w cmd r field tail := by
  unfold decodeFrame at h
  split at h
  · rename_i m lo hi cmd tail
    dsimp only at h
    split_ifs at h with hm hfit hw <;> cases h
    · exact ⟨true, cmd, _, _, tail, by rw [hm, ← frameBytes_fields, hw], hfit, rfl⟩
    · exact ⟨false, cmd, _, _, tail, by rw [hm, ← frameBytes_fields, Bool.eq_false_iff.mpr hw], hfit, rfl⟩
  · cases h

/-! ### The two directions -/

/-- Decoding the words of a received-byte class. -/
theorem decode_encode_instr {c : RxContext} {b : Byte} {cl : RxClass} (ha : cl.admits b)
    (hw : (cl.instr b).wellFormed = true) (hf : (cl.instr b).fits c = true) :
    decode c (encode (cl.instr b)) = .ok (cl.instr b) := by
  rw [encode_instr ha]
  exact decodeKey_rxKey (classify_of_fits ha hw hf)

theorem decode_encode_frameInstr {c : RxContext} {w : Bool} {cmd : Byte} {r : BitVec 5} {field : BitVec 10}
    {tail : List Byte} (h : (frameInstr w cmd r field tail).wellFormed = true) :
    decode c (encode (frameInstr w cmd r field tail)) = .ok (frameInstr w cmd r field tail) := by
  rw [encode_frameInstr]
  exact decodeFrame_frameBytes w cmd r (wellFormed_frameInstr w cmd r field tail ▸ h)

/-- Settles O6, by the three word formats: frames, decode keys, and the select codes, which carry their operands in the
ports as they are. -/
theorem decodeInvertsEncode : Obligations.DecodeInvertsEncode := by
  intro i c hw hf
  cases i with
  | frameRead cmd r field tail => exact decode_encode_frameInstr (w := false) hw
  | frameWrite cmd r field tail => exact decode_encode_frameInstr (w := true) hw
  | rxNoise b => exact decode_encode_instr (cl := .noise) nofun hw hf
  | rxMarker => exact decode_encode_instr (cl := .marker) (b := Config.marker) (fun _ => rfl) hw hf
  | rxFlagsLo b => exact decode_encode_instr (cl := .flagsLo) nofun hw hf
  | rxFlagsHiOk b => exact decode_encode_instr (cl := .flagsHiOk) nofun hw hf
  | rxFlagsHiBad b => exact decode_encode_instr (cl := .flagsHiBad) nofun hw hf
  | rxBody b => exact decode_encode_instr (cl := .body) nofun hw hf
  | rxLastOk b => exact decode_encode_instr (cl := .lastOk) nofun hw hf
  | rxLastBad b => exact decode_encode_instr (cl := .lastBad) nofun hw hf
  | _ => rfl

/-- Settles O7: frame bytes are the frame of their own fields, a key is that of the class it decodes to. -/
theorem encodeInvertsDecode : Obligations.EncodeInvertsDecode := by
  refine ⟨fun c bytes i h => ?_, fun c k i h => ?_⟩
  · obtain ⟨w, cmd, r, field, tail, rfl, hfit, rfl⟩ := decodeFrame_eq_ok h
    exact ⟨encode_frameInstr .., (wellFormed_frameInstr ..).trans hfit⟩
  · obtain ⟨ps, b, cl, rfl, hcl, rfl⟩ := decodeKey_eq_ok h
    obtain ⟨rfl, ha, hw, hf⟩ := classify_eq_ok hcl
    exact ⟨encode_instr ha, hw, hf⟩

/-! ### The table of R104 over the parser's registers -/

theorem exists_rxClass {ck : Config.CkStep} {p : ParserRegs} (hi : p.Inv ck) (b : Byte) :
    ∃ cl, rxClass p b ck = .ok cl := by
  obtain ⟨l, cl, t, -, hcl, -⟩ := feedByte_cases (s := State.reset.setParser p) hi b
  exact ⟨cl, hcl⟩

/-- Settles O9: under the invariant every byte has a class, and a row's condition holds exactly when the decoder gives
its class. -/
theorem byteClassesExhaustiveAndExclusive : Obligations.ByteClassesExhaustiveAndExclusive := by
  intro p b hi
  obtain ⟨cl, hcl⟩ := exists_rxClass hi b
  refine ⟨cl, fun cl' => ⟨fun h => ?_, ?_⟩, decodeKey_rxKey hcl⟩
  · exact Except.ok.inj ((rxClass_of_rowHolds h).symm.trans hcl)
  · rintro rfl
    exact rowHolds_of_rxClass hcl

/-- The instruction of a class runs only where R104 gives its byte that class. -/
theorem exec_instr_inClass {cl : RxClass} {b : Byte} (ha : cl.admits b) (s : State) :
    ∃ k, exec (cl.instr b) s = inClass Config.ckStep cl b s k := by
  cases cl with
  | marker => rw [ha rfl]; exact ⟨_, rfl⟩
  | _ => exact ⟨_, rfl⟩

theorem inClass_other {ck : Config.CkStep} {cl cl' : RxClass} {b : Byte} {s : State} {k : Out}
    (h : rxClass s.parser b ck = .ok cl) (hne : cl' ≠ cl) : inClass ck cl' b s k = .refused .otherClass := by
  simp only [inClass, h, if_neg hne.symm]

/-- Settles O25: the byte's class is the row's, so the guard of every other class refuses it. -/
theorem otherClassIsRefused : Obligations.OtherClassIsRefused := by
  intro cl cl' b s ha hrow hne
  obtain ⟨k, hk⟩ := exec_instr_inClass (cl := cl') (b := b) ha s
  exact hk.trans (inClass_other (rxClass_of_rowHolds hrow) hne)

/-! ### Words written out, and the pseudo-operations -/

/-- Settles O8: the decoder run on each word. -/
theorem tableWordsDecode : Obligations.TableWordsDecode := by
  unfold Obligations.TableWordsDecode
  decide

theorem decodeCall_pseudoFeedAll (bytes : List Byte) :
    (pseudoFeedAll bytes).map decodeCall = bytes.map fun b => .ok (.feed b) := by
  rw [pseudoFeedAll, List.map_map]; rfl

/-- Settles O54: each select code of R107's calls is read as its operation. -/
theorem pseudoOperationsAreTheirCalls : Obligations.PseudoOperationsAreTheirCalls := by
  intro cmd w payload bytes timeout
  refine ⟨decodeCall_pseudoFeedAll bytes, ?_, rfl, rfl⟩
  rw [pseudoDecode, List.map_cons, decodeCall_pseudoFeedAll]; rfl

end Sys2Proof
end

section
/-! PROOFS. The encoding family, its frame rows (spec/30_encoding.md R91, R107, R108; log 8): a frame row is the run of
`FEED` over its bytes (O34), and a frame of accepted length and right checksum is received whole (O33). O34 rests on two
facts: what a byte does depends on the parser's path alone (`feedByte_withPath`), and both runs take the bytes one by one
(`feedAll_eq_feedRun`). -/

namespace Sys2Proof.Machine

open Sys2Proof

variable {ck : Config.CkStep}

/-! ### What a byte does depends on the parser's path alone -/

/-- The state `s` with the registers a received byte writes taken from `u`. -/
def State.withPath (s u : State) : State := { s with parser := u.parser, ckAcc := u.ckAcc, feedOut := u.feedOut }

@[simp] theorem State.withPath_self (s : State) : s.withPath s = s := rfl

/-- A byte does the same thing whatever stands outside the parser's path. -/
theorem FeedCase.withPath {b : Byte} {s t : State} {l : List Byte} {cl : RxClass} (h : FeedCase ck b s l cl t)
    (x : State) : FeedCase ck b (x.withPath s) l cl (x.withPath t) := by
  cases h with
  | noise hp hb => exact .noise hp hb
  | marker hp hb => exact .marker hp hb
  | flagsLo hp hl => exact .flagsLo hp hl
  | flagsHiOk lo hp hl hc => exact .flagsHiOk lo hp hl hc
  | flagsHiBad lo hp hl hc => exact .flagsHiBad lo hp hl hc
  | body hp hr => exact .body hp hr
  | lastOk m lo hi cmd mid c0 hp hr hl hck => exact .lastOk m lo hi cmd mid c0 hp hr hl hck
  | lastBad m lo hi cmd mid c0 hp hr hl hck => exact .lastBad m lo hi cmd mid c0 hp hr hl hck

/-- The bytes held and the class fix what a byte does. -/
theorem FeedCase.unique {b : Byte} {s t t' : State} {l : List Byte} {cl : RxClass} (h : FeedCase ck b s l cl t)
    (h' : FeedCase ck b s l cl t') : t = t' := by
  cases h with
  | noise => cases h'; rfl
  | marker => cases h'; rfl
  | flagsLo => cases h'; rfl
  | flagsHiOk lo _ hl => cases h' with | flagsHiOk lo' _ hl' => cases hl.symm.trans hl'; rfl
  | flagsHiBad => cases h'; rfl
  | body => cases h'; rfl
  | lastOk m lo hi cmd mid c0 _ _ hl =>
    cases h' with
    | lastOk m' lo' hi' cmd' mid' c0' _ _ hl' => cases (List.append_inj' (hl.symm.trans hl') rfl).1; rfl
  | lastBad m lo hi cmd mid c0 _ _ hl =>
    cases h' with
    | lastBad m' lo' hi' cmd' mid' c0' _ _ hl' => rw [(List.append_inj' (hl.symm.trans hl') rfl).1]

/-- What the parser does with a byte depends on the registers it writes, and on nothing else of the state. -/
theorem feedByte_withPath {b : Byte} {s t : State} (hi : s.parser.Inv ck) (h : feedByte b s ck = .next t) (x : State) :
    feedByte b (x.withPath s) ck = .next (x.withPath t) := by
  obtain ⟨l, cl, t₀, hl, hcl, ht₀, hc⟩ := feedByte_cases hi b
  obtain rfl : t₀ = t := Host.Outcome.next.inj (ht₀.symm.trans h)
  obtain ⟨l', cl', t', hl', hcl', ht', hc'⟩ := feedByte_cases (s := x.withPath s) hi b
  obtain rfl : l = l' := Option.some.inj (hl.symm.trans hl')
  obtain rfl : cl = cl' := Except.ok.inj (hcl.symm.trans hcl')
  rw [ht', (hc.withPath x).unique hc']

/-! ### The positions of `FrameReady` in a run -/

/-- The positions at which a run of `FEED` returned `FrameReady` (R107). -/
def readyPositions (rs : List FeedResult) : List Nat :=
  (List.range rs.length).filter fun i => rs[i]? = some .frameReady

theorem readyPositions_cons (r : FeedResult) (rs : List FeedResult) :
    readyPositions (r :: rs) = (if r = .frameReady then [0] else []) ++ (readyPositions rs).map (· + 1) := by
  simp only [readyPositions, List.length_cons, List.range_succ_eq_map, List.filter_cons, List.filter_map,
    List.getElem?_cons_zero, Option.some.injEq, decide_eq_true_eq]
  split <;> rfl

theorem readyPositions_readyAtLast (n : Nat) : readyPositions (readyAtLast n) = [n] := by
  induction n with
  | zero => rfl
  | succ n ih =>
    have h : readyAtLast (n + 1) = .incomplete :: readyAtLast n := rfl
    rw [h, readyPositions_cons, ih]; rfl

theorem notePosition_eq (i : Nat) (seen : List Nat) (s : State) :
    notePosition i seen s = seen ++ (if s.feedOut = .frameReady then [i] else []) := by
  unfold notePosition
  cases s.feedOut <;> simp

/-! ### `feedall` is the run of `FEED` -/

/-- From an idle state that meets the invariant the run of `FEED` over any bytes exists, and `feedall` over them, in any
state with the same parser's path, ends on that run's path with the positions at which it was ready. -/
theorem feedAll_eq_feedRun (l : List Byte) : ∀ (i : Nat) (seen : List Nat) (s x : State), Ready s ck →
    ∃ rs u, feedRun l s ck = some (rs, u) ∧
      feedAll l i seen (x.withPath s) ck =
        .next (deliver (x.withPath u) (.readyAt (seen ++ (readyPositions rs).map (· + i)))) := by
  induction l with
  | nil =>
    intro i seen s x _
    exact ⟨[], s, rfl, by simp [feedAll, readyPositions]⟩
  | cons b l ih =>
    intro i seen s x hg
    have ⟨⟨hparser, _⟩, hcs⟩ := hg
    obtain ⟨t, ht, -, -⟩ := feedByte_keeps hparser b
    obtain ⟨rs, u, hrun, hall⟩ := ih (i + 1) (notePosition i seen (x.withPath t)) _ x (hg.feed ht)
    refine ⟨t.feedOut :: rs, u, by rw [feedRun_cons hcs ht, hrun]; rfl, ?_⟩
    have hpos : seen ++ (readyPositions (t.feedOut :: rs)).map (· + i) =
        notePosition i seen (x.withPath t) ++ (readyPositions rs).map (· + (i + 1)) := by
      rw [notePosition_eq, readyPositions_cons, List.map_append, List.map_map, List.append_assoc]
      congr 2
      · have hout : (x.withPath t).feedOut = t.feedOut := rfl
        rw [hout]; split <;> simp
      · simp [Function.comp_def, Nat.add_comm 1, Nat.add_assoc]
    rw [feedAll, feedByte_withPath hparser ht x, hpos]
    exact hall

/-! ### The frame rows -/

theorem execBy_frameInstr (w : Bool) (cmd : Byte) (r : BitVec 5) (field : BitVec 10) (tail : List Byte) (s : State) :
    execBy ck (frameInstr w cmd r field tail) s = execFrameBy ck w cmd r field tail s := by
  cases w <;> rfl

/-- A frame row is the run of `FEED` over its bytes. -/
theorem execFrameBy_eq_feedRun (w : Bool) (cmd : Byte) (r : BitVec 5) (field : BitVec 10) (tail : List Byte) {s : State}
    (hg : Ready s ck) :
    ∃ rs u, feedRun (frameBytes w cmd r field tail) s ck = some (rs, u) ∧
      execFrameBy ck w cmd r field tail s = .next (deliver (s.withPath u) (.readyAt (readyPositions rs))) := by
  obtain ⟨rs, u, hrun, hall⟩ := feedAll_eq_feedRun (frameBytes w cmd r field tail) 0 [] s s hg
  refine ⟨rs, u, hrun, ?_⟩
  rw [execFrameBy, whenIdle_idle hg.2]
  simpa only [State.withPath_self, List.nil_append, Nat.add_zero, List.map_id'] using hall

/-- Settles O34: `execFrameBy_eq_feedRun` at the default `CK_STEP`. -/
theorem frameRowsAreFeedAll : Obligations.FrameRowsAreFeedAll := by
  intro w cmd r field tail s hi hcs
  obtain ⟨rs, u, hrun, hx⟩ := execFrameBy_eq_feedRun w cmd r field tail (s := s) ⟨hi, hcs⟩
  refine ⟨_, rs, u, ?_, hrun, rfl⟩
  exact (execBy_default (frameInstr w cmd r field tail) s).symm.trans ((execBy_frameInstr ..).trans hx)

/-! ### A frame received whole -/

/-- The latched frame, read off the bytes held (R26, R162). -/
theorem latchedFrame_of_held {p : ParserRegs} {m lo hi cmd c0 c1 : Byte} {payload : List Byte}
    (hh : p.held = some ([m, lo, hi, cmd] ++ payload ++ [c0, c1])) (hok : p.frameOk = true) :
    latchedFrame p = .ok
      { cmd := p.cmdLatched, write := flagsWrite (le16 lo hi), flagsRaw := le16 lo hi, payload := payload } := by
  have hw : p.wrIdx = payload.length + 6 := by rw [← ParserRegs.held_length hh]; simp
  have hflags : p.flagsRaw = some (le16 lo hi) := ParserRegs.read16_of_held hh rfl rfl
  have hpayload : p.payload = some payload := by
    rw [ParserRegs.payload, ParserRegs.readRange_of_held hh (by omega) (by omega)]
    simp [hw]
  simp only [latchedFrame, hok, hflags, hpayload, if_true]

/-- A frame of accepted length and right checksum, from `HUNTING`: ready at its last byte and nowhere else, and latched
with what its bytes say. -/
theorem feedRun_goodFrame (lo hi cmd : Byte) {c0 c1 : Byte} {payload : List Byte} {s : State} (hg : Ready s ck)
    (hp : s.parser.ps = .hunting) (hc : countInRange (flagsCount (le16 lo hi)) = true)
    (hn : flagsCount (le16 lo hi) = payload.length + 3)
    (hsum : le16 c0 c1 = checksum ([Config.marker, lo, hi, cmd] ++ payload) ck) :
    ∃ u, feedRun ([Config.marker, lo, hi, cmd] ++ payload ++ [c0, c1]) s ck =
        some (readyAtLast (5 + payload.length), u) ∧ u.parser.ps = .hunting ∧
      latchedFrame u.parser = .ok
        { cmd := cmd, write := flagsWrite (le16 lo hi), flagsRaw := le16 lo hi, payload := payload } := by
  have hck : ckHolds lo hi cmd c0 c1 payload ck = true := decide_eq_true hsum
  obtain ⟨u, hrun, -, hps, hheld, hok, hcmd⟩ := feedRun_frame lo hi cmd c0 c1 payload hg hp hc hn
  rw [if_pos hck] at hrun
  have hlatched := latchedFrame_of_held hheld (hok.trans hck)
  rw [hcmd hck] at hlatched
  exact ⟨u, hrun, hps, hlatched⟩

/-- A frame row with the length field of its payload, accepted, and the right checksum, from `HUNTING`. -/
theorem execFrameBy_received (w : Bool) (cmd : Byte) (r : BitVec 5) (field : BitVec 10) {c0 c1 : Byte}
    {payload : List Byte} {s : State} (hg : Ready s ck) (hp : s.parser.ps = .hunting)
    (hlen : payload.length + 1 = field.toNat) (hmax : field.toNat ≤ 1017)
    (hsum : le16 c0 c1 = checksum (frameBytes w cmd r field payload) ck) :
    ∃ t, execFrameBy ck w cmd r field (payload ++ [c0, c1]) s = .next t ∧
      t.result = some (.readyAt [5 + payload.length]) ∧ t.parser.ps = .hunting ∧
      latchedFrame t.parser = .ok { cmd := cmd, write := w, flagsRaw := mkFlags w r field, payload := payload } := by
  have hcount : flagsCount (mkFlags w r field) = payload.length + 3 := by
    rw [flagsCount, flagsField_mkFlags, ← hlen]; rfl
  obtain ⟨u, hrun, hps, hlatched⟩ :=
    feedRun_goodFrame (lo8 (mkFlags w r field)) (hi8 (mkFlags w r field)) cmd hg hp
      (by rw [le16_lo8_hi8, countInRange_iff, hcount]; omega) (by rw [le16_lo8_hi8, hcount]) hsum
  rw [le16_lo8_hi8, flagsWrite_mkFlags] at hlatched
  obtain ⟨rs, u', hrun', hx⟩ := execFrameBy_eq_feedRun w cmd r field (payload ++ [c0, c1]) hg
  obtain ⟨rfl, rfl⟩ := Prod.mk.inj (Option.some.inj (hrun'.symm.trans hrun))
  rw [readyPositions_readyAtLast] at hx
  exact ⟨_, hx, rfl, hps, hlatched⟩

/-! The flags of a frame, in the numbers of R91 and R92. -/

theorem mkFlags_eq_ofNat (w : Bool) (r : BitVec 5) (field : BitVec 10) :
    mkFlags w r field = BitVec.ofNat 16 (field.toNat * 64 + r.toNat * 2 + w.toNat) := by
  rw [Nat.add_assoc, ← mkFlags_toNat, BitVec.ofNat_toNat, BitVec.setWidth_eq]

theorem frameBytes_eq_ofNat (w : Bool) (cmd : Byte) (r : BitVec 5) (field : BitVec 10) (tail : List Byte) :
    frameBytes w cmd r field tail =
      [0xAA, BitVec.ofNat 8 ((field.toNat * 64 + r.toNat * 2 + w.toNat) % 256),
        BitVec.ofNat 8 ((field.toNat * 64 + r.toNat * 2 + w.toNat) / 256), cmd] ++ tail := by
  rw [Nat.add_assoc, ← mkFlags_toNat, ← lo8_toNat, ← hi8_toNat, BitVec.ofNat_toNat, BitVec.setWidth_eq,
    BitVec.ofNat_toNat, BitVec.setWidth_eq]
  rfl

/-- Settles O33: `execFrameBy_received` for either write bit, its frame written out in numbers. -/
theorem frameKindsAreReceived : Obligations.FrameKindsAreReceived := by
  intro cmd r field payload s hi hcs hp hlen hmax
  have received := fun w => execFrameBy_received w cmd r field (s := s) ⟨hi, hcs⟩ hp hlen hmax (le16_lo8_hi8 _)
  simp only [frameBytes_eq_ofNat, mkFlags_eq_ofNat] at received
  exact ⟨received false, received true⟩

end Sys2Proof.Machine
end

section
/-! PROOFS. The checksum family (spec/40_checksum.md): the recurrence of R121 as an operation on bits (O11, O12), its fold
over a sequence for any `CK_STEP` (O13, O57), and the instructions that run the engine (O10, O55). About the recurrence
one fact carries the rest, `ckStep_eq_iff`: which differences of accumulator and byte it maps to 0 (R125). -/

namespace Sys2Proof.Machine

open Sys2Proof

/-! ### The recurrence of R121 -/

theorem setWidth_hi8 (v : U16) : (hi8 v).setWidth 16 = v >>> 8 := by
  have := v.isLt
  apply BitVec.eq_of_toNat_eq
  rw [BitVec.toNat_setWidth, hi8_toNat, BitVec.toNat_ushiftRight, Nat.shiftRight_eq_div_pow]
  omega

theorem setWidth_lo8_shiftLeft (v : U16) : (lo8 v).setWidth 16 <<< 8 = v <<< 8 := by
  apply BitVec.eq_of_toNat_eq
  rw [BitVec.toNat_shiftLeft, BitVec.toNat_setWidth, lo8_toNat, BitVec.toNat_shiftLeft, Nat.shiftLeft_eq,
    Nat.shiftLeft_eq]
  omega

theorem hi8_shiftLeft (v : U16) : hi8 (v <<< 8) = lo8 v := by
  apply BitVec.eq_of_toNat_eq
  rw [hi8_toNat, lo8_toNat, BitVec.toNat_shiftLeft, Nat.shiftLeft_eq]
  omega

@[simp] theorem lo8_xor (v v' : U16) : lo8 (v ^^^ v') = lo8 v ^^^ lo8 v' := BitVec.setWidth_xor

@[simp] theorem hi8_xor (v v' : U16) : hi8 (v ^^^ v') = hi8 v ^^^ hi8 v' := by
  rw [hi8, BitVec.ushiftRight_xor_distrib, BitVec.setWidth_xor]; rfl

theorem lo8_shiftLeft (v : U16) (n : Nat) : lo8 (v <<< n) = lo8 v <<< n :=
  BitVec.setWidth_shiftLeft_of_le (by decide)

@[simp] theorem lo8_setWidth (c : Byte) : lo8 (c.setWidth 16) = c := by
  rw [lo8, BitVec.setWidth_setWidth_of_le _ (by decide), BitVec.setWidth_eq]

/-- A word is 0 when both its bytes are. -/
theorem eq_zero_of_bytes {v : U16} (hlo : lo8 v = 0) (hhi : hi8 v = 0) : v = 0 := by
  rw [← le16_lo8_hi8 v, hlo, hhi]; rfl

/-- R122: the two shifts of the code are one of 5 and one of 12 (D2). -/
theorem ckStep_closedForm (acc : U16) (b : Byte) :
    ckStep acc b = ((lo8 acc).setWidth 16 <<< 8) ^^^ (hi8 acc ^^^ b).setWidth 16 ^^^
      ((hi8 acc ^^^ b).setWidth 16 <<< 5) ^^^ ((hi8 acc ^^^ b).setWidth 16 <<< 12) := by
  have h12 : ∀ c : U16, c <<< 12 = c <<< 5 <<< 7 := fun c => BitVec.shiftLeft_add c 5 7
  rw [setWidth_lo8_shiftLeft, BitVec.setWidth_xor, setWidth_hi8, h12]
  rfl

/-- Settles O11. -/
theorem checksumStepClosedForm : Obligations.ChecksumStepClosedForm := ckStep_closedForm

/-- R125: shifts and XOR are linear over GF(2). -/
theorem ckStep_xor (a a' : U16) (b b' : Byte) : ckStep (a ^^^ a') (b ^^^ b') = ckStep a b ^^^ ckStep a' b' := by
  simp only [ckStep, BitVec.ushiftRight_xor_distrib, BitVec.shiftLeft_xor_distrib, BitVec.setWidth_xor]
  ac_rfl

/-- The low byte of the result is a function of the code alone (R122). -/
theorem lo8_ckStep (acc : U16) (b : Byte) :
    lo8 (ckStep acc b) = (hi8 acc ^^^ b) ^^^ (hi8 acc ^^^ b) <<< 5 := by
  have hout : ∀ {c : Byte} {n : Nat}, 8 ≤ n → c <<< n = 0#8 := BitVec.shiftLeft_eq_zero
  rw [ckStep_closedForm]
  simp only [lo8_xor, lo8_shiftLeft, lo8_setWidth, hout (Nat.le_refl 8), hout (by decide : 8 ≤ 12), BitVec.zero_xor,
    BitVec.xor_zero]

/-- With the code 0 the update is the shift by a byte. -/
theorem ckStep_hi8 (acc : U16) : ckStep acc (hi8 acc) = acc <<< 8 := by
  rw [ckStep_closedForm, BitVec.xor_self, setWidth_lo8_shiftLeft]
  simp

/-- A byte equal to its own shift by 5 is equal to its shift by 10, which is 0. -/
theorem eq_zero_of_eq_shiftLeft_five {c : Byte} (h : c = c <<< 5) : c = 0 := by
  calc c = c <<< 5 <<< 5 := by rw [← h, ← h]
    _ = c <<< (5 + 5) := (BitVec.shiftLeft_add c 5 5).symm
    _ = 0 := BitVec.shiftLeft_eq_zero (by decide)

/-- The kernel of the recurrence: the low byte of the result gives the code, then the high byte the accumulator's low one
(R125). -/
theorem ckStep_eq_zero_iff (acc : U16) (b : Byte) : ckStep acc b = 0 ↔ hi8 acc = b ∧ lo8 acc = 0 := by
  constructor
  · intro h
    have hcode : hi8 acc ^^^ b = 0 := by
      have hlo : lo8 (ckStep acc b) = 0 := by rw [h]; rfl
      rw [lo8_ckStep] at hlo
      exact eq_zero_of_eq_shiftLeft_five (BitVec.xor_eq_zero_iff.mp hlo)
    obtain rfl : hi8 acc = b := BitVec.xor_eq_zero_iff.mp hcode
    rw [ckStep_hi8] at h
    exact ⟨rfl, by rw [← hi8_shiftLeft, h]; rfl⟩
  · rintro ⟨rfl, hlo⟩
    rw [ckStep_hi8, ← setWidth_lo8_shiftLeft, hlo]; rfl

/-- Two updates agree exactly when the difference of their operands is in the kernel. -/
theorem ckStep_eq_iff (a a' : U16) (b b' : Byte) :
    ckStep a b = ckStep a' b' ↔ hi8 (a ^^^ a') = b ^^^ b' ∧ lo8 (a ^^^ a') = 0 := by
  rw [← ckStep_eq_zero_iff, ckStep_xor]
  exact BitVec.xor_eq_zero_iff.symm

theorem ckStep_injective_acc (b : Byte) : Function.Injective fun acc => ckStep acc b := by
  intro a a' h
  obtain ⟨hhi, hlo⟩ := (ckStep_eq_iff a a' b b).mp h
  exact BitVec.xor_eq_zero_iff.mp (eq_zero_of_bytes hlo (hhi.trans BitVec.xor_self))

theorem ckStep_injective_byte (acc : U16) : Function.Injective (ckStep acc) := by
  intro b b' h
  obtain ⟨hhi, -⟩ := (ckStep_eq_iff acc acc b b').mp h
  rw [BitVec.xor_self] at hhi
  exact BitVec.xor_eq_zero_iff.mp hhi.symm

/-- Settles O12: on the finitely many accumulators an injective map is a bijection. -/
theorem checksumStepLinearAndBijective : Obligations.ChecksumStepLinearAndBijective :=
  ⟨ckStep_xor, fun b => Finite.injective_iff_bijective.mp (ckStep_injective_acc b)⟩

/-! ### The fold over a sequence -/

section AnyStep

variable {ck : Config.CkStep}

theorem foldl_injective_acc (hacc : ∀ b, Function.Injective fun acc => ck acc b) (l : List Byte) :
    Function.Injective fun acc => l.foldl ck acc := by
  induction l with
  | nil => exact Function.injective_id
  | cons b l ih => exact ih.comp (hacc b)

/-- The changed byte makes the accumulators differ, and no later byte makes them equal again (R125). -/
theorem foldl_set_ne (hacc : ∀ b, Function.Injective fun acc => ck acc b) (hbyte : ∀ acc, Function.Injective (ck acc))
    {v : Byte} {l : List Byte} {i : Nat} (hi : i < l.length) (hv : l[i]? ≠ some v) (acc : U16) :
    (l.set i v).foldl ck acc ≠ l.foldl ck acc := by
  induction l generalizing i acc with
  | nil => exact absurd hi (Nat.not_lt_zero i)
  | cons b l ih =>
    cases i with
    | zero =>
      intro h
      have hvb : v = b := hbyte acc (foldl_injective_acc hacc l h)
      exact hv (congrArg some hvb.symm)
    | succ i => exact ih (Nat.lt_of_succ_lt_succ hi) hv (ck acc b)

end AnyStep

/-- Settles O57: `foldl_set_ne` from `CK_INIT`. -/
theorem changedByteChangesTheChecksum : Obligations.ChangedByteChangesTheChecksum :=
  ⟨ckStep_injective_acc, ckStep_injective_byte, fun _ hacc hbyte _ _ _ hi hv => foldl_set_ne hacc hbyte hi hv Config.ckInit⟩

theorem flipBit_eq_set {l : List Byte} {i : Nat} (hi : i < l.length) (k : Fin 8) :
    flipBit l i k = l.set i (l[i] ^^^ BitVec.twoPow 8 k.val) := by
  rw [flipBit, List.modify_eq_set_getElem?, List.getElem?_eq_getElem hi]; rfl

theorem twoPow_ne_zero : ∀ k : Fin 8, BitVec.twoPow 8 k.val ≠ 0#8 := by decide

theorem xor_twoPow_ne (b : Byte) (k : Fin 8) : b ^^^ BitVec.twoPow 8 k.val ≠ b := fun h =>
  twoPow_ne_zero k ((BitVec.xor_right_inj b).mp (h.trans BitVec.xor_zero.symm))

/-- Settles O13: a flipped bit makes another byte, and the recurrence of R121 has both injectivities. -/
theorem oneFlippedBitChangesChecksum : Obligations.OneFlippedBitChangesChecksum := by
  intro l i k hi
  rw [flipBit_eq_set hi]
  refine foldl_set_ne ckStep_injective_acc ckStep_injective_byte hi ?_ Config.ckInit
  rw [List.getElem?_eq_getElem hi]
  exact fun h => xor_twoPow_ne l[i] k (Option.some.inj h).symm

/-! ### `CHECKSUM` and `ENCODE` run the supplied step -/

theorem execBy_checksum_idle (ck : Config.CkStep) (l : List Byte) {s : State} (h : s.cs = .idle) :
    execBy ck (.checksum l) s = .next (deliver (s.setCkAcc (checksum l ck)) (.checksum (checksum l ck))) :=
  whenIdle_idle h

theorem ckStep_zero_zero : ckStep 0x0000 0x00 = 0x0000 := by decide

theorem checksum_replicate_zero_append (n : Nat) (l : List Byte) : checksum (List.replicate n 0x00 ++ l) = checksum l := by
  induction n with
  | zero => rfl
  | succ n ih =>
    calc checksum (List.replicate (n + 1) 0x00 ++ l)
        = (List.replicate n 0x00 ++ l).foldl ckStep (ckStep 0x0000 0x00) := rfl
      _ = checksum (List.replicate n 0x00 ++ l) := by rw [ckStep_zero_zero]; rfl
      _ = checksum l := ih

/-- Settles O10: the operation at the default `CK_STEP`, and the worked values evaluated. -/
theorem checksumOperation : Obligations.ChecksumOperation :=
  ⟨fun l s h => (execBy_default (.checksum l) s).symm.trans (execBy_checksum_idle Config.ckStep l h), rfl,
    ckStep_zero_zero, by decide, checksum_replicate_zero_append, by decide⟩

/-- The covered bytes in the numbers of R141 and R142. -/
theorem encodeCovered_eq_ofNat (cmd : Byte) (w : Bool) {payload : List Byte} (h : payload.length ≤ 1016) :
    encodeCovered cmd w payload =
      [0xAA, BitVec.ofNat 8 (((1 + payload.length) * 64 + w.toNat) % 256),
        BitVec.ofNat 8 (((1 + payload.length) * 64 + w.toNat) / 256), cmd] ++ payload := by
  rw [← encodeFlags_toNat w h, ← lo8_toNat, ← hi8_toNat, BitVec.ofNat_toNat, BitVec.setWidth_eq, BitVec.ofNat_toNat,
    BitVec.setWidth_eq]
  rfl

theorem execBy_encode_idle (ck : Config.CkStep) (cmd : Byte) (w : Bool) {payload : List Byte} {s : State}
    (hcs : s.cs = .idle) (hlen : payload.length ≤ 1016) :
    execBy ck (.encode cmd w payload) s = .next (deliver s (.bytes (encodeFrame cmd w payload ck))) :=
  (whenIdle_idle hcs).trans (if_pos hlen)

/-! ### What the supplied step cannot change -/

/-- A class of a frame's last byte: the two are told apart by the checksum (R104). -/
def IsLast (cl : RxClass) : Prop := cl = .lastOk ∨ cl = .lastBad

theorem isLast_ite (c : Prop) [Decidable c] : IsLast (if c then .lastOk else .lastBad) := by
  split
  · exact .inl rfl
  · exact .inr rfl

/-- Another `CK_STEP` changes a byte's class at most from one of a last byte to the other. -/
theorem rxClass_supplied (ck ck' : Config.CkStep) (p : ParserRegs) (b : Byte) :
    rxClass p b ck = rxClass p b ck' ∨
      ∃ cl cl', IsLast cl ∧ IsLast cl' ∧ rxClass p b ck = .ok cl ∧ rxClass p b ck' = .ok cl' := by
  cases hp : p.ps with
  | hunting => left; simp only [rxClass, hp, classify]
  | gotMarker => left; simp only [rxClass, hp, classify]
  | gotFlagsLow => left; simp only [rxClass, hp, classify, rxContext]
  | accumulating =>
    by_cases hr : p.rem = 1
    · cases hlo : p.readBuf (p.wrIdx - 1) with
      | none => left; simp only [rxClass, hp, classify, rxContext, hlo]
      | some lo =>
        cases hl : p.readRange 0 (p.wrIdx - 1) with
        | none => left; simp only [rxClass, hp, classify, rxContext, hl, Option.map_none]
        | some l =>
          exact .inr ⟨_, _, isLast_ite _, isLast_ite _, rxClass_last hp hr hlo hl b, rxClass_last hp hr hlo hl b⟩
    · left; simp only [rxClass, hp, classify, rxContext, hr, if_false]

/-- The guard of a class that is not of a last byte does not depend on `CK_STEP`. -/
theorem inClass_supplied (ck ck' : Config.CkStep) {cl : RxClass} (hcl : ¬ IsLast cl) (b : Byte) (s : State) (k : Out) :
    inClass ck cl b s k = inClass ck' cl b s k := by
  have hne : ∀ {c : RxClass}, IsLast c → cl ≠ c := fun hc e => hcl (e ▸ hc)
  rcases rxClass_supplied ck ck' s.parser b with h | ⟨c, c', hc, hc', h, h'⟩
  · rw [inClass, h]; rfl
  · rw [inClass_other h (hne hc), inClass_other h' (hne hc')]

/-- The instructions in whose meaning the checksum engine runs. -/
def RunsEngine : Instr → Prop
  | .rxLastOk _ | .rxLastBad _ | .feed _ | .frameRead .. | .frameWrite .. | .checksum _ | .encode .. => True
  | _ => False

/-- Every other instruction does the same whatever is supplied: the received-byte classes by their guard, the rest
because no `CK_STEP` stands in their meaning. -/
theorem execBy_supplied (ck : Config.CkStep) {i : Instr} (hi : ¬ RunsEngine i) (s : State) : execBy ck i s = exec i s := by
  cases i with
  | rxNoise b => exact inClass_supplied ck Config.ckStep (cl := .noise) nofun b s _
  | rxMarker => exact inClass_supplied ck Config.ckStep (cl := .marker) nofun Config.marker s _
  | rxFlagsLo b => exact inClass_supplied ck Config.ckStep (cl := .flagsLo) nofun b s _
  | rxFlagsHiOk b => exact inClass_supplied ck Config.ckStep (cl := .flagsHiOk) nofun b s _
  | rxFlagsHiBad b => exact inClass_supplied ck Config.ckStep (cl := .flagsHiBad) nofun b s _
  | rxBody b => exact inClass_supplied ck Config.ckStep (cl := .body) nofun b s _
  | parserReset | frameGet | reqLoad | waitFrame | transact => rfl
  | rxLastOk | rxLastBad | feed | frameRead | frameWrite | checksum | encode => exact absurd trivial hi

/-- Settles O55, clause by clause. -/
theorem suppliedStepIsTheOneThatRuns : Obligations.SuppliedStepIsTheOneThatRuns := by
  refine ⟨fun ck l s hcs => execBy_checksum_idle ck l hcs, fun ck cmd w payload s hcs hlen => ?_,
    fun ck i s hok hbad hfeed hread hwrite hsum henc => execBy_supplied ck (fun hrun => ?_) s, execBy_default,
    stepBy_default⟩
  · rw [execBy_encode_idle ck cmd w hcs hlen, encodeFrame, encodeCovered_eq_ofNat cmd w hlen]
    rfl
  · cases i with
    | rxLastOk b => exact hok b rfl
    | rxLastBad b => exact hbad b rfl
    | feed b => exact hfeed b rfl
    | frameRead c r f l => exact hread c r f l rfl
    | frameWrite c r f l => exact hwrite c r f l rfl
    | checksum l => exact hsum l rfl
    | encode c w l => exact henc c w l rfl
    | _ => exact hrun

end Sys2Proof.Machine
end

section
/-! PROOFS. The encoder family (spec/41_encoder.md): what `ENCODE` answers in the numbers of R141 and R142 (O14, O15),
and the round trip of R142 for any `CK_STEP` (O58) and for the default one (O30). The round trip is
`feedRun_encodeFrame`: an encoded frame has an accepted length and, by its construction, the right checksum, so a hunting
parser latches it whole. -/

namespace Sys2Proof.Machine

open Sys2Proof

/-! ### `ENCODE` -/

theorem execBy_encode_tooLong (ck : Config.CkStep) (cmd : Byte) (w : Bool) {payload : List Byte} {s : State}
    (hcs : s.cs = .idle) (hlen : Config.payloadMax < payload.length) :
    execBy ck (.encode cmd w payload) s = .refused .payloadTooLong :=
  (whenIdle_idle hcs).trans (if_neg (Nat.not_le.mpr hlen))

/-- Settles O15: `execBy_encode_tooLong` at the default `CK_STEP`. -/
theorem encodeRefusesLongPayload : Obligations.EncodeRefusesLongPayload := fun cmd w payload s hcs hlen =>
  (execBy_default (.encode cmd w payload) s).symm.trans (execBy_encode_tooLong Config.ckStep cmd w hcs hlen)

/-- Settles O14: the flags are the number of R141, and the result is `encodeFrame` with its covered bytes in those
numbers. -/
theorem encodeBuildsTheFrame : Obligations.EncodeBuildsTheFrame := by
  intro cmd w payload s hcs hlen
  have hw : w.toNat < 2 := Bool.toNat_lt w
  refine ⟨by omega, by omega, ?_⟩
  rw [← execBy_default, execBy_encode_idle Config.ckStep cmd w hcs hlen, encodeFrame, encodeCovered_eq_ofNat cmd w hlen]
  rfl

/-! ### The round trip -/

variable {ck : Config.CkStep}

/-- A run of `FEED` keeps the invariant and the idle phase. -/
theorem Ready.of_feedRun {l : List Byte} : ∀ {s u : State} {rs : List FeedResult}, Ready s ck →
    feedRun l s ck = some (rs, u) → Ready u ck := by
  induction l with
  | nil =>
    intro s u rs hg hrun
    cases hrun
    exact hg
  | cons b l ih =>
    intro s u rs hg hrun
    obtain ⟨t, ht, -, -⟩ := feedByte_keeps hg.1.1 b
    rw [feedRun_cons hg.2 ht] at hrun
    obtain ⟨⟨rs', u'⟩, hrest, heq⟩ := Option.map_eq_some_iff.mp hrun
    cases heq
    exact ih (hg.feed ht) hrest

/-- What a latched frame says of the registers. -/
theorem latchedFrame_eq_ok {p : ParserRegs} {f : Frame} (h : latchedFrame p = .ok f) :
    p.frameOk = true ∧ p.cmdLatched = f.cmd := by
  unfold latchedFrame at h
  split at h
  · split at h <;> cases h
    exact ⟨‹_›, rfl⟩
  · cases h

theorem execBy_frameGet_latched {s : State} {f : Frame} (hcs : s.cs = .idle) (h : latchedFrame s.parser = .ok f) :
    execBy ck .frameGet s = .next (deliver s (.frame f)) :=
  (whenIdle_idle hcs).trans (by rw [h])

theorem flagsWrite_encodeFlags (w : Bool) {n : Nat} (h : n ≤ 1016) : flagsWrite (encodeFlags w n) = w := by
  rw [encodeFlags_eq w h, flagsWrite_mkFlags]

/-- An encoded frame fed to a hunting parser is ready at its last byte, and latched with the encoder's operands. -/
theorem feedRun_encodeFrame (cmd : Byte) (w : Bool) {payload : List Byte} {s : State} (hg : Ready s ck)
    (hp : s.parser.ps = .hunting) (hlen : payload.length ≤ 1016) :
    ∃ u, feedRun (encodeFrame cmd w payload ck) s ck = some (readyAtLast (5 + payload.length), u) ∧ Ready u ck ∧
      u.parser.ps = .hunting ∧
      latchedFrame u.parser = .ok
        { cmd := cmd, write := w, flagsRaw := encodeFlags w payload.length, payload := payload } := by
  have hcount := flagsCount_encodeFlags w hlen
  have hsum := le16_lo8_hi8 (checksum (encodeCovered cmd w payload) ck)
  obtain ⟨u, hrun, hps, hlatched⟩ := feedRun_goodFrame (lo8 (encodeFlags w payload.length))
    (hi8 (encodeFlags w payload.length)) cmd hg hp (by rw [le16_lo8_hi8, hcount, countInRange_iff]; omega)
    (by rw [le16_lo8_hi8, hcount]) hsum
  rw [le16_lo8_hi8, flagsWrite_encodeFlags w hlen] at hlatched
  exact ⟨u, hrun, hg.of_feedRun hrun, hps, hlatched⟩

/-- Settles O58: `feedRun_encodeFrame`, read back by `FRAME_GET`. -/
theorem encodedFrameRoundTripsForAnyStep : Obligations.EncodedFrameRoundTripsForAnyStep := by
  intro ck cmd w payload s hi hcs hp hlen
  obtain ⟨u, hrun, ⟨-, hidle⟩, -, hlatched⟩ := feedRun_encodeFrame cmd w (s := s) ⟨hi, hcs⟩ hp hlen
  obtain ⟨hok, hcmd⟩ := latchedFrame_eq_ok hlatched
  exact ⟨u, hrun, hok, hcmd, _, execBy_frameGet_latched hidle hlatched⟩

/-- Settles O30: O58 at the default `CK_STEP`. -/
theorem encodedFrameRoundTrips : Obligations.EncodedFrameRoundTrips := by
  intro cmd w payload s hi hcs hp hlen
  obtain ⟨u, hrun, hok, hcmd, flags, hget⟩ := encodedFrameRoundTripsForAnyStep Config.ckStep cmd w payload s hi hcs hp hlen
  exact ⟨u, flags, hrun, hok, hcmd, (execBy_default .frameGet u).symm.trans hget⟩

end Sys2Proof.Machine
end

section
/-! PROOFS. The decoder family (spec/42_decoder.md): each received-byte class in the state its row names (O16 to O23, O56),
`FEED` as the class of its byte (O26), `PARSER_RESET` and the window of `FRAME_GET` (O27 to O29), and what a run of `FEED`
does with garbage and with a flipped bit (O31, O32). The classes of a last byte go through `last_reads`, which reads the
registers off the bytes held; a flipped frame is again a frame of that length (`flipBit_frame`), and its checksum no
longer holds (`flipBit_checksum_ne`). -/

namespace Sys2Proof.Machine

open Sys2Proof

variable {ck : Config.CkStep}

/-! ### Resynchronisation -/

theorem readyAtLast_add (m n : Nat) : readyAtLast (m + n) = List.replicate m .incomplete ++ readyAtLast n := by
  rw [readyAtLast, readyAtLast, ← List.append_assoc, List.replicate_append_replicate]

/-- What a latched frame says of the buffer. -/
theorem latchedFrame_payload {p : ParserRegs} {f : Frame} (h : latchedFrame p = .ok f) : p.payload = some f.payload := by
  unfold latchedFrame at h
  split at h
  · split at h <;> cases h
    assumption
  · cases h

/-- Settles O31: the garbage is noise and leaves the parser hunting, and a hunting parser receives the frame. -/
theorem resynchronisesAfterGarbage : Obligations.ResynchronisesAfterGarbage := by
  intro garbage cmd w payload s hi hcs hp hgarbage hlen
  obtain ⟨t, hnoise, hready, hhunting⟩ := feedRun_noise garbage s ⟨hi, hcs⟩ hp hgarbage
  obtain ⟨u, hframe, -, -, hlatched⟩ := feedRun_encodeFrame cmd w hready hhunting hlen
  refine ⟨u, ?_, (latchedFrame_eq_ok hlatched).2, latchedFrame_payload hlatched⟩
  rw [feedRun_append hnoise, hframe, readyAtLast_add garbage.length]; rfl

/-! ### A flipped bit -/

section FlipBit

variable (k : Fin 8)

theorem flipBit_append_left {l : List Byte} {i : Nat} (hi : i < l.length) (l' : List Byte) :
    flipBit (l ++ l') i k = flipBit l i k ++ l' := by
  induction l generalizing i with
  | nil => exact absurd hi (Nat.not_lt_zero i)
  | cons b l ih =>
    cases i with
    | zero => rfl
    | succ i => exact congrArg (b :: ·) (ih (Nat.lt_of_succ_lt_succ hi))

theorem flipBit_append_right (l l' : List Byte) (j : Nat) :
    flipBit (l ++ l') (l.length + j) k = l ++ flipBit l' j k := by
  induction l with
  | nil => rw [List.length_nil, Nat.zero_add]; rfl
  | cons b l ih => rw [List.length_cons, Nat.succ_add]; exact congrArg (b :: ·) ih

theorem length_flipBit (l : List Byte) (i : Nat) : (flipBit l i k).length = l.length := List.length_modify ..

theorem flipBit_ne {l : List Byte} {i : Nat} (hi : i < l.length) : flipBit l i k ≠ l := by
  rw [flipBit_eq_set hi]
  intro h
  have hbyte : l[i] ^^^ BitVec.twoPow 8 k.val = l[i] := by
    simpa [hi] using congrArg (·[i]?) h
  exact xor_twoPow_ne l[i] k hbyte

/-- No bit can be flipped in bytes followed by their checksum so that they are followed by their checksum again (R125):
flipped in the bytes, it changes their checksum; flipped in the checksum, it changes the stored one. -/
theorem flipBit_checksum_ne {l l' : List Byte} {c0 c1 : Byte} {i : Nat} (hi : i < l.length + 2)
    (hflip : flipBit (l ++ [lo8 (checksum l), hi8 (checksum l)]) i k = l' ++ [c0, c1]) :
    le16 c0 c1 ≠ checksum l' := by
  intro hsum
  rcases Nat.lt_or_ge i l.length with hlt | hge
  · rw [flipBit_append_left k hlt] at hflip
    obtain ⟨rfl, hck⟩ := List.append_inj' hflip rfl
    obtain ⟨rfl, rfl⟩ : lo8 (checksum l) = c0 ∧ hi8 (checksum l) = c1 := by simpa using hck
    rw [le16_lo8_hi8] at hsum
    exact oneFlippedBitChangesChecksum l i k hlt hsum.symm
  · obtain ⟨j, rfl⟩ := Nat.exists_eq_add_of_le hge
    rw [flipBit_append_right] at hflip
    obtain ⟨rfl, hck⟩ := List.append_inj' hflip (length_flipBit ..)
    rw [← hsum, lo8_le16, hi8_le16] at hck
    exact flipBit_ne k (Nat.lt_of_add_lt_add_left hi) hck

end FlipBit

theorem twoPow_div_64 : ∀ k : Fin 8, k.val < 6 → (BitVec.twoPow 8 k.val).toNat / 2 ^ 6 = 0 := by decide

/-- The length field begins at bit 6 of the flags (R92): a bit below it does not change `count`. -/
theorem flagsCount_flip_low (lo hi : Byte) {k : Fin 8} (hk : k.val < 6) :
    flagsCount (le16 (lo ^^^ BitVec.twoPow 8 k.val) hi) = flagsCount (le16 lo hi) := by
  have hlo : (lo ^^^ BitVec.twoPow 8 k.val).toNat / 2 ^ 6 = lo.toNat / 2 ^ 6 := by
    rw [BitVec.toNat_xor, Nat.xor_div_two_pow, twoPow_div_64 k hk, Nat.xor_zero]
  rw [flagsCount_eq, flagsCount_eq, le16_toNat, le16_toNat]
  omega

/-- Six bytes or more are header, command, payload and two checksum bytes. -/
theorem exists_frame_parts {l : List Byte} {n : Nat} (h : l.length = n + 6) :
    ∃ m lo hi cmd payload c0 c1, l = [m, lo, hi, cmd] ++ payload ++ [c0, c1] ∧ payload.length = n := by
  obtain ⟨m, lo, hi, cmd, hhead⟩ := List.length_eq_four.mp (show (l.take 4).length = 4 by simp; omega)
  obtain ⟨c0, c1, hlast⟩ := List.length_eq_two.mp (show ((l.drop 4).drop n).length = 2 by simp; omega)
  refine ⟨m, lo, hi, cmd, (l.drop 4).take n, c0, c1, ?_, by simp; omega⟩
  rw [← hhead, ← hlast, List.append_assoc, List.take_append_drop, List.take_append_drop]

/-- A frame with a bit flipped outside marker and length field is a frame of the same length. -/
theorem flipBit_frame {lo hi cmd c0 c1 : Byte} {payload : List Byte} {i : Nat} {k : Fin 8}
    (hpos : i = 1 ∧ k.val < 6 ∨ 3 ≤ i) :
    ∃ lo' cmd' payload' c0' c1', flipBit ([Config.marker, lo, hi, cmd] ++ payload ++ [c0, c1]) i k =
        [Config.marker, lo', hi, cmd'] ++ payload' ++ [c0', c1'] ∧
      payload'.length = payload.length ∧ flagsCount (le16 lo' hi) = flagsCount (le16 lo hi) := by
  rcases hpos with ⟨rfl, hk⟩ | hge
  · exact ⟨lo ^^^ BitVec.twoPow 8 k.val, cmd, payload, c0, c1, rfl, rfl, flagsCount_flip_low lo hi hk⟩
  · obtain ⟨j, rfl⟩ := Nat.exists_eq_add_of_le' hge
    obtain ⟨m, lo', hi', cmd', payload', c0', c1', hparts, hlen⟩ := exists_frame_parts (n := payload.length)
      (l := flipBit ([Config.marker, lo, hi, cmd] ++ payload ++ [c0, c1]) (j + 3) k) (by rw [length_flipBit]; simp)
    have hhead : Config.marker :: lo :: hi :: flipBit (cmd :: payload ++ [c0, c1]) j k =
        m :: lo' :: hi' :: cmd' :: (payload' ++ [c0', c1']) := hparts
    obtain ⟨rfl, rfl, rfl, -⟩ : Config.marker = m ∧ lo = lo' ∧ hi = hi' ∧ _ := by simpa using hhead
    exact ⟨lo, cmd', payload', c0', c1', hparts, hlen, rfl⟩

/-- An encoded frame with such a bit flipped is a frame of its length whose checksum does not hold. -/
theorem flipBit_encodeFrame (cmd : Byte) (w : Bool) {payload : List Byte} {i : Nat} {k : Fin 8}
    (hlen : payload.length ≤ 1016) (hpos : i = 1 ∧ k.val < 6 ∨ 3 ≤ i ∧ i < 6 + payload.length) :
    ∃ lo hi cmd' payload' c0 c1, flipBit (encodeFrame cmd w payload) i k =
        [Config.marker, lo, hi, cmd'] ++ payload' ++ [c0, c1] ∧
      payload'.length = payload.length ∧ flagsCount (le16 lo hi) = payload.length + 3 ∧
      ckHolds lo hi cmd' c0 c1 payload' = false := by
  have hcovered : (encodeCovered cmd w payload).length = 4 + payload.length := by
    rw [encodeCovered, List.length_append]; rfl
  obtain ⟨lo, cmd', payload', c0, c1, hflip, hlen', hcount⟩ := flipBit_frame (hi := hi8 (encodeFlags w payload.length))
    (hpos.imp_right And.left)
  rw [le16_lo8_hi8, flagsCount_encodeFlags w hlen] at hcount
  have hsum := flipBit_checksum_ne (l := encodeCovered cmd w payload) k (by omega) hflip
  exact ⟨lo, _, cmd', payload', c0, c1, hflip, hlen', hcount, decide_eq_false hsum⟩

/-- Such a frame is dropped at its last byte, where the parser hunts again (R158, R167). -/
theorem feedRun_flipBit_encodeFrame (cmd : Byte) (w : Bool) {payload : List Byte} {i : Nat} {k : Fin 8} {s : State}
    (hg : Ready s) (hp : s.parser.ps = .hunting) (hlen : payload.length ≤ 1016)
    (hpos : i = 1 ∧ k.val < 6 ∨ 3 ≤ i ∧ i < 6 + payload.length) :
    ∃ u, feedRun (flipBit (encodeFrame cmd w payload) i k) s =
        some (List.replicate (6 + payload.length) .incomplete, u) ∧
      Ready u ∧ u.parser.ps = .hunting ∧ u.parser.frameOk = false := by
  obtain ⟨lo, hi, cmd', payload', c0, c1, hflip, hlen', hcount, hck⟩ := flipBit_encodeFrame cmd w hlen hpos
  obtain ⟨u, hrun, hready, hps, -, hok, -⟩ := feedRun_frame lo hi cmd' c0 c1 payload' hg hp
    (by rw [countInRange_iff, hcount]; omega) (by rw [hcount, hlen'])
  refine ⟨u, ?_, hready, hps, hok.trans hck⟩
  rw [hflip, hrun, hck, hlen', if_neg Bool.false_ne_true, ← List.replicate_succ', Nat.add_right_comm]

/-- Settles O32: the flipped frame is dropped, and the next one is fed to a hunting parser. -/
theorem flippedFrameIsSilentlyDropped : Obligations.FlippedFrameIsSilentlyDropped := by
  intro cmd cmd' w w' payload payload' i k s hi hcs hp hlen hlen' hpos
  obtain ⟨u, hrun, hready, hps, hok⟩ := feedRun_flipBit_encodeFrame cmd w (s := s) ⟨hi, hcs⟩ hp hlen hpos
  obtain ⟨v, hrun', -, -, hlatched⟩ := feedRun_encodeFrame cmd' w' hready hps hlen'
  exact ⟨u, hrun, hps, hok, v, hrun', (latchedFrame_eq_ok hlatched).2⟩

/-! ### The classes of header and body -/

theorem State.Inv.parserPhase {s : State} (h : s.Inv ck) : s.parser.phaseInv := h.1.2.1

theorem ParserRegs.append_at {p : ParserRegs} {n : Nat} (h : p.wrIdx = n) (b : Byte) :
    p.append b = { p with buf := p.buf.write n b, wrIdx := n + 1 } := by
  subst h; rfl

/-- Settles O16. -/
theorem noiseByteIsDiscarded : Obligations.NoiseByteIsDiscarded := fun _ _ hp hb => execRxNoise_eq ⟨hp, hb⟩

/-- Settles O17: the row of `RX_MARKER` in R104 is the only one of its class. -/
theorem markerStartsAFrame : Obligations.MarkerStartsAFrame :=
  ⟨fun _ hp => execRxMarker_eq hp, fun _ _ => ⟨fun h => rowHolds_of_rxClass h, fun h => rxClass_of_rowHolds h⟩⟩

/-- Settles O18: in `GOT_MARKER` the buffer holds the marker alone. -/
theorem flagsLowByteIsAppended : Obligations.FlagsLowByteIsAppended := by
  intro b s hi hp
  obtain ⟨hw, -, -, -⟩ := ParserRegs.phaseInv_gotMarker hi.parserPhase hp
  have hx := execRxFlagsLo_eq (ck := Config.ckStep) (b := b) hp (by rw [hw]; decide)
  rw [ParserRegs.append_at hw] at hx
  exact hx

/-- `count` in the numbers of R154, of the two flags bytes. -/
theorem flagsCount_le16 (lo hi : Byte) : flagsCount (le16 lo hi) = (lo.toNat + 256 * hi.toNat) / 64 + 2 := by
  rw [flagsCount_eq, le16_toNat]

/-- Settles O19. -/
theorem acceptedLengthStartsAccumulating : Obligations.AcceptedLengthStartsAccumulating := by
  intro lo b s count hi hp hlo hcount hmin hmax
  obtain ⟨hw, -, -, -⟩ := ParserRegs.phaseInv_gotFlagsLow hi.parserPhase hp
  rw [← flagsCount_le16] at hcount
  subst hcount
  have hx := execRxFlagsHiOk_eq (ck := Config.ckStep) hp hw hlo ((countInRange_iff _).mpr ⟨hmin, hmax⟩)
  rw [ParserRegs.append_at hw] at hx
  exact hx

/-- Settles O20: a 16-bit value has a length field of at most 1023. -/
theorem rejectedLengthReturnsToHunting : Obligations.RejectedLengthReturnsToHunting := by
  intro lo b s count hi hp hlo hcount hout
  obtain ⟨hw, -, hok, -⟩ := ParserRegs.phaseInv_gotFlagsLow hi.parserPhase hp
  have hlt := lo.isLt
  have hlt' := b.isLt
  refine ⟨by omega, hok, ?_⟩
  rw [hcount, ← flagsCount_le16, ← countInRange_iff, Bool.not_eq_true] at hout
  have hx := execRxFlagsHiBad_eq (ck := Config.ckStep) hp hw hlo hout
  rw [ParserRegs.append_at hw] at hx
  exact hx

theorem accumulating_wrIdx_lt {p : ParserRegs} (hi : p.Inv ck) (hp : p.ps = .accumulating) :
    p.wrIdx < Config.bufBytes := by
  obtain ⟨⟨-, hw⟩, -⟩ := ParserRegs.phaseInv_accumulating hi.2.1 hp
  exact Nat.lt_of_le_of_lt hw (by decide)

/-- Settles O21. -/
theorem bodyByteIsAccumulated : Obligations.BodyByteIsAccumulated := fun _ _ hi hp hr =>
  execRxBody_eq hp hr (accumulating_wrIdx_lt hi.1 hp)

/-! ### The classes of a last byte -/

section LastByte

variable {b ckLo : Byte} {covered : List Byte} {s : State}

/-- The checksum byte before the last and the covered bytes, read where the decode table and the engine read them. -/
theorem last_reads {p : ParserRegs} (hh : p.held = some (covered ++ [ckLo])) :
    1 ≤ p.wrIdx ∧ p.readBuf (p.wrIdx - 1) = some ckLo ∧ p.readRange 0 (p.wrIdx - 1) = some covered := by
  have hw : p.wrIdx = covered.length + 1 := by rw [← ParserRegs.held_length hh, List.length_append]; rfl
  rw [ParserRegs.readBuf_of_held hh, ParserRegs.readRange_of_held hh (Nat.zero_le _) (Nat.sub_le ..), hw]
  exact ⟨Nat.le_add_left .., by simp, by simp⟩

variable (hi : s.parser.Inv ck) (hp : s.parser.ps = .accumulating) (hr : s.parser.rem = 1)
  (hh : s.parser.held = some (covered ++ [ckLo]))
include hi hp hr hh

/-- The covered bytes of a frame that lacks its last byte reach the command (R26). -/
theorem covered_command : ∃ cmd, covered[3]? = some cmd := by
  obtain ⟨_, _, cmd, mid, c0, hh', -⟩ := last_held hi hp hr
  obtain ⟨rfl, -⟩ := List.append_inj' (Option.some.inj (hh.symm.trans hh')) rfl
  exact ⟨cmd, rfl⟩

theorem execRxLastOk_of_held (hsum : le16 ckLo b = checksum covered ck) :
    ∃ cmd, covered[3]? = some cmd ∧
      execRxLastOkBy ck b s = .next (((s.setParser { s.parser.append b with
        ps := .hunting, rem := 0, cmdLatched := cmd, frameOk := true }).setCkAcc (checksum covered ck)).setFeedOut
          .frameReady) := by
  obtain ⟨hw, hlo, hcovered⟩ := last_reads hh
  obtain ⟨cmd, hcmd⟩ := covered_command hi hp hr hh
  have hlt : 3 < covered.length := (List.getElem?_eq_some_iff.mp hcmd).1
  have hread : (s.parser.append b).readBuf 3 = some cmd := by
    rw [ParserRegs.readBuf_of_held (ParserRegs.held_append hh b), List.append_assoc, List.getElem?_append_left hlt, hcmd]
  exact ⟨cmd, hcmd, execRxLastOk_eq hp hr (accumulating_wrIdx_lt hi hp) hw hlo hcovered hsum hread⟩

theorem execRxLastBad_of_held (hsum : le16 ckLo b ≠ checksum covered ck) :
    execRxLastBadBy ck b s = .next (((s.setParser { s.parser.append b with
      ps := .hunting, rem := 0 }).setCkAcc (checksum covered ck)).setFeedOut .incomplete) := by
  obtain ⟨hw, hlo, hcovered⟩ := last_reads hh
  exact execRxLastBad_eq hp hr (accumulating_wrIdx_lt hi hp) hw hlo hcovered hsum

end LastByte

/-- Settles O22: `count` and `wr_idx` are tied by the invariant at `rem = 1`. -/
theorem goodLastByteLatchesTheFrame : Obligations.GoodLastByteLatchesTheFrame := by
  intro b ckLo covered s hi hp hr hh hsum
  obtain ⟨cmd, hcmd, hx⟩ := execRxLastOk_of_held hi.1 hp hr hh hsum
  obtain ⟨-, -, ⟨count, hcount, -, hend⟩, -⟩ := ParserRegs.phaseInv_accumulating hi.parserPhase hp
  exact ⟨cmd, count, checksum covered, hcmd, hcount, hr ▸ hend, hx⟩

/-- In `ACCUMULATING` no frame is latched (R42). -/
theorem accumulating_frameOk {p : ParserRegs} (hi : p.Inv ck) (hp : p.ps = .accumulating) : p.frameOk = false := by
  obtain ⟨-, -, -, -, hok⟩ := ParserRegs.phaseInv_accumulating hi.2.1 hp
  exact hok

/-- Settles O23. -/
theorem badLastByteIsDiscardedSilently : Obligations.BadLastByteIsDiscardedSilently :=
  fun _ _ covered _ hi hp hr hh hsum =>
    ⟨accumulating_frameOk hi.1 hp, checksum covered, execRxLastBad_of_held hi.1 hp hr hh hsum⟩

/-- Settles O56: the two classes of a last byte hold for any `CK_STEP`. -/
theorem lastByteIsVerifiedWithTheSuppliedStep : Obligations.LastByteIsVerifiedWithTheSuppliedStep := by
  intro ck b ckLo covered s hi hp hr hh
  have hok := accumulating_frameOk hi.1 hp
  refine ⟨fun hsum => ?_, fun hsum => ?_⟩
  · obtain ⟨cmd, hcmd, hx⟩ := execRxLastOk_of_held hi.1 hp hr hh hsum
    exact ⟨_, hx, rfl, hcmd, rfl, rfl⟩
  · exact ⟨_, execRxLastBad_of_held hi.1 hp hr hh hsum, hok, rfl, rfl, rfl⟩

/-! ### `FEED` -/

/-- The rows of R104 exclude each other: the one that holds is the decoder's class. -/
theorem rowHolds_iff_of_rxClass {p : ParserRegs} {b : Byte} {cl : RxClass} (h : rxClass p b ck = .ok cl)
    (cl' : RxClass) : RowHolds p b cl' ck ↔ cl' = cl := by
  refine ⟨fun hrow => Except.ok.inj ((rxClass_of_rowHolds hrow).symm.trans h), ?_⟩
  rintro rfl
  exact rowHolds_of_rxClass h

/-- `FrameReady` is returned by `RX_LAST_OK` alone (R150, R157). -/
theorem FeedCase.frameReady_iff {b : Byte} {s t : State} {l : List Byte} {cl : RxClass} (h : FeedCase ck b s l cl t) :
    t.feedOut = .frameReady ↔ cl = .lastOk := by
  cases h with
  | lastOk => exact iff_of_true rfl rfl
  | _ => exact iff_of_false nofun nofun

theorem execBy_feed {b : Byte} {s t : State} (hcs : s.cs = .idle) (h : feedByte b s ck = .next t) :
    execBy ck (.feed b) s = .next (deliver t (.ready t.feedOut)) :=
  (whenIdle_idle hcs).trans (by rw [h]; rfl)

/-- Settles O26: `feedByte_cases` for each byte; the worked example is an encoded frame. -/
theorem feedRunsExactlyOneClass : Obligations.FeedRunsExactlyOneClass := by
  refine ⟨fun b s hi hcs => ?_, fun s hi hcs hp => ?_⟩
  · obtain ⟨l, cl, t, -, hcl, ht, hcase⟩ := feedByte_cases hi.1 b
    exact ⟨cl, t, rowHolds_iff_of_rxClass hcl, (feedByte_eq_exec hcl).symm.trans ht, execBy_feed hcs ht,
      hcase.frameReady_iff⟩
  · have hframe : encodeFrame 0x2C false [] = [0xAA, 0x40, 0x00, 0x2C, 0x8D, 0xF1] := by decide
    obtain ⟨u, hrun, -⟩ := feedRun_encodeFrame 0x2C false (payload := []) (s := s) ⟨hi, hcs⟩ hp (Nat.zero_le _)
    rw [hframe] at hrun
    exact ⟨u, hrun⟩

/-! ### `PARSER_RESET` and `FRAME_GET` -/

theorem ParserRegs.phaseInv_hunting {p : ParserRegs} (h : p.phaseInv) (hp : p.ps = .hunting) : p.rem = 0 := h.1 hp

/-- A hunting parser with `rem = 0` is as `PARSER_RESET` leaves it. -/
theorem resetParser_hunting {s : State} (hp : s.parser.ps = .hunting) (hr : s.parser.rem = 0) : resetParser s = s := by
  have hparser : { s.parser with ps := .hunting, rem := 0 } = s.parser := by rw [← hp, ← hr]
  exact congrArg s.setParser hparser

/-- Settles O27: in `HUNTING` the invariant has `rem = 0`. -/
theorem parserResetAbandonsPartialFrame : Obligations.ParserResetAbandonsPartialFrame := by
  refine ⟨fun s hcs => exec_parserReset_idle hcs, fun s hi hcs hp => ?_⟩
  rw [exec_parserReset_idle hcs, resetParser_hunting hp (ParserRegs.phaseInv_hunting hi.parserPhase hp)]; rfl

/-- (I5) said of the bytes held: a latched frame is in the buffer whole, with the length its flags say, its command
latched and its checksum right (R42). -/
theorem latched_held {p : ParserRegs} (hinv : p.Inv ck) (hok : p.frameOk = true) :
    ∃ m lo hi payload c0 c1, p.held = some ([m, lo, hi, p.cmdLatched] ++ payload ++ [c0, c1]) ∧
      flagsCount (le16 lo hi) = payload.length + 3 ∧
      le16 c0 c1 = checksum ([m, lo, hi, p.cmdLatched] ++ payload) ck := by
  obtain ⟨l, hh, hlen⟩ := hinv.held
  obtain ⟨-, ⟨hmin, -⟩, ⟨n, hn, hw⟩, -, hcmd, v, hstored, hcovered⟩ := hinv.2.2 hok
  obtain ⟨m, lo, hi, cmd, payload, c0, c1, rfl, hpayload⟩ :=
    exists_frame_parts (n := p.wrIdx - 6) (hlen.trans (Nat.sub_add_cancel hmin).symm)
  have hwr : p.wrIdx = payload.length + 6 := by omega
  obtain rfl : cmd = p.cmdLatched := by
    rw [ParserRegs.readBuf_of_held hh] at hcmd
    exact Option.some.inj hcmd
  have hcount : p.count = some (flagsCount (le16 lo hi)) := by
    rw [ParserRegs.count, ParserRegs.flagsRaw, ParserRegs.read16_of_held hh rfl rfl]; rfl
  obtain rfl : flagsCount (le16 lo hi) = n := Option.some.inj (hcount.symm.trans hn)
  have hst : p.ckStored = some (le16 c0 c1) := by
    rw [ParserRegs.ckStored, hwr]
    exact ParserRegs.read16_of_held hh (by simp) (by simp)
  have hcov : p.ckCovered ck = some (checksum ([m, lo, hi, p.cmdLatched] ++ payload) ck) := by
    rw [ParserRegs.ckCovered, ParserRegs.readRange_of_held hh (Nat.zero_le _) (Nat.sub_le ..), hwr]
    simp
  refine ⟨m, lo, hi, payload, c0, c1, hh, by omega, ?_⟩
  exact (Option.some.inj (hst.symm.trans hstored)).trans (Option.some.inj (hcovered.symm.trans hcov))

/-- Settles O28: `FRAME_GET` reads the frame of `latched_held`. -/
theorem frameGetReturnsTheLatchedFrame : Obligations.FrameGetReturnsTheLatchedFrame := by
  intro s hinv hcs hok
  obtain ⟨m, lo, hi, payload, c0, c1, hh, hcount, hsum⟩ := latched_held hinv.1 hok
  rw [flagsCount_le16] at hcount
  have hwrite : flagsWrite (le16 lo hi) = lo.getLsbD 0 := by simp [flagsWrite, le16]
  have hget := execBy_frameGet_latched (ck := Config.ckStep) hcs (latchedFrame_of_held hh hok)
  rw [hwrite] at hget
  exact ⟨m, lo, hi, payload, c0, c1, hh, by omega, hsum, hget⟩

theorem latchedFrame_noFrame {p : ParserRegs} (h : p.frameOk = false) : latchedFrame p = .error .noFrame := by
  rw [latchedFrame, h]; rfl

/-- Of the instructions by which the parser takes bytes only those that bring a marker can clear `frame_ok`; no other
instruction writes it. -/
theorem exec_clears_frameOk {i : Instr} {s t : State} (h : exec i s = .next t) (hs : s.parser.frameOk = true)
    (ht : t.parser.frameOk = false) :
    i = .rxMarker ∨ i = .feed Config.marker ∨ (∃ c r f l, i = .frameRead c r f l) ∨ ∃ c r f l, i = .frameWrite c r f l := by
  by_cases hi : TakesBytes i
  · cases hi with
    | rx cl b =>
      rcases (exec_rx_same h).2 hs with ht' | rfl
      · exact absurd (ht'.symm.trans ht) (by decide)
      · exact .inl rfl
    | feed b =>
      obtain ⟨u, hu, hd⟩ := afterFeed_next (whenIdle_next h).2
      cases hd
      rcases (feedByte_same hu).2 hs with ht' | rfl
      · exact absurd (ht'.symm.trans ht) (by decide)
      · exact .inr (.inl rfl)
    | frameRead c r f l => exact .inr (.inr (.inl ⟨c, r, f, l, rfl⟩))
    | frameWrite c r f l => exact .inr (.inr (.inr ⟨c, r, f, l, rfl⟩))
  · obtain ⟨-, -, -, hsame, -⟩ := (exec_next h).frame_same hi
    exact absurd ((hs.symm.trans hsame.symm).trans ht) (by decide)

/-- Settles O29. -/
theorem onlyAMarkerClosesTheFrameWindow : Obligations.OnlyAMarkerClosesTheFrameWindow :=
  ⟨fun _ hcs hok => (whenIdle_idle hcs).trans (by rw [latchedFrame_noFrame hok]), fun _ _ _ => exec_clears_frameOk⟩

end Sys2Proof.Machine
end

section
/-! PROOFS. The reader family (spec/43_streaming_reader.md): the entry of `WAIT_FRAME` (O35), a step of the wait at an
empty poll (O36) and at a delivered byte (O37), that a begun operation never stops (O60), and that a non-blocking wait is
over (O39). First one equation per branch of the reader and of the start of an attempt; then `waitStep_byte_cases`, all
that a delivered byte can do to a wait, from which O37, O60 and the induction of O39 follow. -/

namespace Sys2Proof.Machine

open Sys2Proof

variable {ck : Config.CkStep}

/-! ### The reader, branch by branch -/

theorem Env.rxPoll_listed {e : Env} {answer : Option Byte} {rest : List (Option Byte)} (h : e.polls = answer :: rest) :
    e.rxPoll = (answer, { e with polls := rest }) := by rw [Env.rxPoll, h]

theorem beginWait_nonblocking (who : Waiter) (e : Byte) (s : State) :
    beginWait who e 0 s =
      (s.setCs (.wait who)).setReader { s.reader with expect := e, toVal := 0, wmode := false } := rfl

theorem beginWait_blocking (who : Waiter) (e : Byte) {timeout : Time} (h : 0 < timeout) (s : State) :
    beginWait who e timeout s = ((s.setCs (.wait who)).setEnv s.env.now.2).setReader
      { expect := e, toVal := timeout, wmode := true, tDeadline := s.env.now.1 + timeout } := if_pos h

theorem emptyPoll_nonblocking (who : Waiter) {s : State} (h : s.reader.wmode = false) :
    emptyPoll who s = waitNone who s := by
  simp [emptyPoll, h]

theorem emptyPoll_expired (who : Waiter) {s : State} (h : s.reader.wmode = true)
    (hd : s.reader.tDeadline ≤ s.env.now.1) : emptyPoll who s = waitNone who (s.setEnv s.env.now.2) := by
  simp [emptyPoll, h, expired, hd]

theorem emptyPoll_unexpired (who : Waiter) {s : State} (h : s.reader.wmode = true)
    (hd : s.env.now.1 < s.reader.tDeadline) : emptyPoll who s = s.setEnv s.env.now.2 := by
  simp [emptyPoll, h, expired, hd]

theorem waitStep_empty {who : Waiter} {s : State} (h : s.env.rxPoll.1 = none) :
    waitStep who s = .next (emptyPoll who (s.setEnv s.env.rxPoll.2)) := by
  simp only [waitStep, h]

theorem waitMatched_latched (who : Waiter) {s : State} {f : Frame} (h : latchedFrame s.parser = .ok f) :
    waitMatched who s = .next (finish s .ok (matchedResult f who)) := by
  rw [waitMatched, h]; cases who <;> rfl

theorem afterByte_matched (who : Waiter) {s : State} (h : matched s = true) :
    afterByte who (.next s) = waitMatched who s := if_pos h

theorem afterByte_unmatched (who : Waiter) {s : State} (h : ¬matched s = true) : afterByte who (.next s) = .next s :=
  if_neg h

theorem matched_iff (s : State) :
    matched s = true ↔ s.feedOut = .frameReady ∧ s.parser.cmdLatched = s.reader.expect := by
  simp [matched]

/-! ### The start of an attempt, branch by branch -/

theorem sendStep_attempt {timeout : Time} {s : State} {bytes : List Byte} (h : s.attempt < Config.retryBudget)
    (hb : s.req.sequence = some bytes) :
    sendStep timeout s = .next (beginWait (.transact timeout) s.req.cmd timeout
      ((resetParser (s.setEnv (s.env.txWrite bytes))).setAttempt (s.attempt + 1))) := by
  rw [sendStep, if_pos h, hb]; rfl

theorem sendStep_exhausted {timeout : Time} {s : State} (h : Config.retryBudget ≤ s.attempt) :
    sendStep timeout s = .next (raise s .timeout) := if_neg (Nat.not_lt.mpr h)

/-- With a request loaded, and so readable whole (R33), the start of an attempt has an outcome. -/
theorem sendStep_total (timeout : Time) {s : State} (hreq : s.req.Inv) (hv : s.req.valid = true) :
    ∃ t, sendStep timeout s = .next t := by
  obtain ⟨-, -, hloaded⟩ := hreq
  obtain ⟨bytes, hb⟩ := Option.isSome_iff_exists.mp (hloaded hv).2
  rcases Nat.lt_or_ge s.attempt Config.retryBudget with hlt | hge
  · exact ⟨_, sendStep_attempt hlt hb⟩
  · exact ⟨_, sendStep_exhausted hge⟩

/-! ### The wait at a delivered byte -/

/-- (I5): a latched frame can be read. -/
theorem exists_latchedFrame {p : ParserRegs} (hi : p.Inv ck) (hok : p.frameOk = true) :
    ∃ f, latchedFrame p = .ok f ∧ f.cmd = p.cmdLatched := by
  obtain ⟨m, lo, hi, payload, c0, c1, hh, -⟩ := latched_held hi hok
  exact ⟨_, latchedFrame_of_held hh hok, rfl⟩

/-- A byte that returns `FrameReady` leaves a frame latched (R157). -/
theorem feedByte_ready_frameOk {b : Byte} {s t : State} (h : feedByte b s ck = .next t) (hr : t.feedOut = .frameReady) :
    t.parser.frameOk = true := by
  obtain ⟨cl, -, hx⟩ := feedByte_next h
  cases execBy_rx_writes hx with
  | lastOk => rfl
  | _ => cases hr

/-- Everything a delivered byte can do to a wait once the parser has taken it (R182, R183): the wait goes on, or it ends
with the frame just latched, which has the expected command. -/
theorem waitStep_byte_cases (who : Waiter) {b : Byte} {s u : State} (hi : s.Inv) (hb : s.env.rxPoll.1 = some b)
    (hu : feedByte b (s.setEnv s.env.rxPoll.2) = .next u) :
    (¬matched u = true ∧ waitStep who s = .next u) ∨
      matched u = true ∧ ∃ f, latchedFrame u.parser = .ok f ∧ f.cmd = s.reader.expect ∧
        waitStep who s = .next (finish u .ok (matchedResult f who)) := by
  have hstep : waitStep who s = afterByte who (.next u) := by rw [waitStep_byte hb, hu]
  by_cases hm : matched u = true
  · obtain ⟨hready, hcmd⟩ := (matched_iff u).mp hm
    have hui : u.Inv := feedByte_inv (s := s.setEnv s.env.rxPoll.2) hi hu
    obtain ⟨f, hf, hfcmd⟩ := exists_latchedFrame hui.1 (feedByte_ready_frameOk hu hready)
    obtain ⟨-, -, hreader, -⟩ := (feedByte_same hu).1
    have hexpect : f.cmd = s.reader.expect := hfcmd.trans (hcmd.trans (congrArg ReaderRegs.expect hreader))
    exact .inr ⟨hm, f, hf, hexpect, hstep.trans ((afterByte_matched who hm).trans (waitMatched_latched who hf))⟩
  · exact .inl ⟨hm, hstep.trans (afterByte_unmatched who hm)⟩

/-- Settles O37: the row that holds is the class the parser runs, and of the rows only `RX_LAST_OK` returns
`FrameReady`, half of the match criterion (R183). -/
theorem polledByteIsParsedThenMatched : Obligations.PolledByteIsParsedThenMatched := by
  intro who b s hi hcs hb
  obtain ⟨l, cl, u, -, hcl, hu, hcase⟩ := feedByte_cases (s := s.setEnv s.env.rxPoll.2) hi.1 b
  obtain ⟨-, -, hreader, -⟩ := hcase.frame
  have hmatch : matched u = true ↔ cl = .lastOk ∧ u.parser.cmdLatched = s.reader.expect := by
    rw [matched_iff, hcase.frameReady_iff, hreader]; rfl
  refine ⟨cl, u, rowHolds_of_rxClass hcl, (feedByte_eq_exec hcl).symm.trans hu, fun hno => ?_, fun hlast hcmd => ?_⟩
  · rcases waitStep_byte_cases who hi hb hu with ⟨-, hstep⟩ | ⟨hm, -⟩
    · exact (step_wait hcs).trans hstep
    · exact absurd (hmatch.mp hm) hno
  · rcases waitStep_byte_cases who hi hb hu with ⟨hm, -⟩ | ⟨-, f, hf, hfcmd, hstep⟩
    · exact absurd (hmatch.mpr ⟨hlast, hcmd⟩) hm
    · exact ⟨f, hf, hfcmd, (step_wait hcs).trans (hstep.trans (by cases who <;> rfl))⟩

/-! ### No stop once begun -/

/-- A wait step has an outcome at every answer of the transport. -/
theorem waitStep_total (who : Waiter) {s : State} (hi : s.Inv) : ∃ t, waitStep who s = .next t := by
  cases hb : s.env.rxPoll.1 with
  | none => exact ⟨_, waitStep_empty hb⟩
  | some b =>
    obtain ⟨u, hu, -⟩ := feedByte_keeps (s := s.setEnv s.env.rxPoll.2) hi.1 b
    rcases waitStep_byte_cases who hi hb hu with ⟨-, hstep⟩ | ⟨-, f, -, -, hstep⟩
    · exact ⟨_, hstep⟩
    · exact ⟨_, hstep⟩

/-- Settles O60, by the phase: in `C_SEND` a request is loaded, in `C_WAIT` every poll has its outcome. -/
theorem runningOperationNeverStops : Obligations.RunningOperationNeverStops := by
  intro s hi hcs
  cases hp : s.cs with
  | idle => exact absurd hp hcs
  | send timeout =>
    obtain ⟨-, hreq, -, hphase⟩ := hi
    have hv : s.req.valid = true := by simpa [State.phaseInv, hp] using hphase
    rw [step_send hp]
    exact sendStep_total timeout hreq hv
  | wait who =>
    rw [step_wait hp]
    exact waitStep_total who hi

/-! ### The non-blocking wait -/

/-- Settles O39, by induction on the delivered bytes: each step takes one and ends the wait or leaves it as it was with
one byte fewer to come, and the empty poll ends it. -/
theorem nonBlockingWaitEnds : Obligations.NonBlockingWaitEnds := by
  intro bytes rest s hi hcs hmode hpolls
  induction bytes generalizing s with
  | nil =>
    have hpoll := Env.rxPoll_listed hpolls
    have hstep : step s = .next (waitNone .host (s.setEnv s.env.rxPoll.2)) := by
      rw [step_wait hcs, waitStep_empty (congrArg Prod.fst hpoll),
        emptyPoll_nonblocking .host (s := s.setEnv s.env.rxPoll.2) hmode]
    exact ⟨1, _, Nat.le_refl _, steps_next hstep, rfl, .inr ⟨rfl, rfl, rfl, congrArg (fun r => r.2.polls) hpoll⟩⟩
  | cons b bytes ih =>
    have hpoll := Env.rxPoll_listed hpolls
    obtain ⟨u, hu, -, -, -, hreader, hucs, -, henv, -⟩ := feedByte_keeps (s := s.setEnv s.env.rxPoll.2) hi.1 b
    have hend := waitStep_byte_cases .host hi (congrArg Prod.fst hpoll) hu
    rw [← step_wait hcs] at hend
    rcases hend with ⟨-, hstep⟩ | ⟨-, f, -, hfcmd, hstep⟩
    · have hui : u.Inv := feedByte_inv (s := s.setEnv s.env.rxPoll.2) hi hu
      have hupolls : u.env.polls = bytes.map some ++ none :: rest := by rw [henv, State.setEnv_env, hpoll]; rfl
      obtain ⟨n, t, hn, hrun, htcs, hres⟩ := ih u hui (hucs.trans hcs) (hreader ▸ hmode) hupolls
      rw [hreader, State.setEnv_reader] at hres
      exact ⟨n + 1, t, Nat.succ_le_succ hn, (steps_next hstep).trans hrun, htcs,
        hres.imp_right fun ⟨hlen, hnone⟩ => ⟨congrArg (· + 1) hlen, hnone⟩⟩
    · exact ⟨1, _, Nat.le_add_left .., steps_next hstep, rfl, .inl ⟨f, rfl, hfcmd, rfl⟩⟩

/-! ### The entry of a wait, and an empty poll -/

theorem exec_waitFrame_idle (e : Byte) (timeout : Time) {s : State} (h : s.cs = .idle) :
    exec (.waitFrame e timeout) s = .next (beginWait .host e timeout (s.setResult none)) := whenIdle_idle h

/-- Settles O35: the two branches of `beginWait`. -/
theorem waitFrameBegins : Obligations.WaitFrameBegins := by
  intro e timeout s hcs
  rw [exec_waitFrame_idle e timeout hcs]
  refine ⟨?_, fun hpos => ?_⟩
  · rintro rfl
    rw [beginWait_nonblocking]; rfl
  · rw [beginWait_blocking .host e hpos]; rfl

/-- Settles O36: the three branches of `emptyPoll`, the ends for both waiters. -/
theorem emptyPollEndsOrContinuesTheWait : Obligations.EmptyPollEndsOrContinuesTheWait := by
  intro who s hcs hpoll
  rw [step_wait hcs, waitStep_empty hpoll]
  refine ⟨fun hmode => ?_, fun hmode hd => ?_, fun hmode hd => ?_⟩
  · rw [emptyPoll_nonblocking who (s := s.setEnv s.env.rxPoll.2) hmode]; cases who <;> rfl
  · rw [emptyPoll_expired who (s := s.setEnv s.env.rxPoll.2) hmode hd]; cases who <;> rfl
  · rw [emptyPoll_unexpired who (s := s.setEnv s.env.rxPoll.2) hmode hd]; rfl

end Sys2Proof.Machine
end
section
/-! PROOFS. The correlator family (spec/44_correlator.md): `REQ_LOAD` (O40, O41), the entry of `TRANSACT` (O42, O43), the
start of an attempt (O44, O45), and whole transactions: any one by an invariant kept by each of its steps (O46), one on a
silent transport by counting its rounds (O47). -/

namespace Sys2Proof.Machine

open Sys2Proof

/-! ### The two operations, branch by branch -/

theorem exec_reqLoad_idle (cmd : Byte) {bytes : List Byte} {s : State} (h : s.cs = .idle)
    (hl : bytes.length ≤ Config.reqBytes) :
    exec (.reqLoad cmd bytes) s = .next (deliver (s.setReq
      { valid := true, cmd := cmd, len := bytes.length, bytes := s.req.bytes.writeSeq 0 bytes }) .done) :=
  (whenIdle_idle h).trans (if_pos hl)

theorem exec_reqLoad_long (cmd : Byte) {bytes : List Byte} {s : State} (h : s.cs = .idle)
    (hl : Config.reqBytes < bytes.length) : exec (.reqLoad cmd bytes) s = .refused .requestTooLong :=
  (whenIdle_idle h).trans (if_neg (Nat.not_le.mpr hl))

theorem exec_transact_loaded (timeout : Time) {s : State} (h : s.cs = .idle) (hv : s.req.valid = true) :
    exec (.transact timeout) s = .next (((s.setAttempt 0).setCs (.send timeout)).setResult none) :=
  (whenIdle_idle h).trans (if_pos hv)

theorem State.setCs_self {s : State} {c : Phase} (h : s.cs = c) : s.setCs c = s := h ▸ rfl

/-- An operation that fails as it is begun has no phase to leave. -/
theorem raise_idle {s : State} (h : s.cs = .idle) (e : Failure) :
    raise s e = (s.setStatus e.status).setResult (some (.raised e)) := by
  rw [raise, finish, State.setCs_self h]

theorem exec_transact_unloaded (timeout : Time) {s : State} (h : s.cs = .idle) (hv : s.req.valid = false) :
    exec (.transact timeout) s =
      .next (((s.setAttempt 0).setStatus .protocolState).setResult (some (.raised .protocolState))) := by
  have hraise := raise_idle (s := s.setAttempt 0) h .protocolState
  exact (whenIdle_idle h).trans ((if_neg (Bool.not_eq_true _ ▸ hv)).trans (congrArg _ hraise))

/-- A request that can be read is loaded (R33). -/
theorem RequestRegs.valid_of_sequence {r : RequestRegs} {bytes : List Byte} (h : r.sequence = some bytes) :
    r.valid = true := by
  unfold RequestRegs.sequence at h
  split at h
  · assumption
  · cases h

/-- Settles O40: the request is written from address 0 on, so it reads back, and no address past it is touched. -/
theorem requestLoadReplacesTheRequest : Obligations.RequestLoadReplacesTheRequest := by
  intro cmd bytes s hcs hl
  exact ⟨_, exec_reqLoad_idle cmd hcs hl, rfl, rfl, rfl, Memory.readSeq_writeSeq s.req.bytes 0 bytes,
    fun a ha => Memory.read_writeSeq_above s.req.bytes bytes ((Nat.zero_add _).trans_le ha)⟩

/-- Settles O41: the other branch of `REQ_LOAD`. -/
theorem requestLoadRefusesLongRequest : Obligations.RequestLoadRefusesLongRequest := fun cmd _ _ hcs hl =>
  exec_reqLoad_long cmd hcs hl

/-- Settles O42: the failing branch of `TRANSACT`; no other instruction than `REQ_LOAD` loads a request. -/
theorem transactWithoutRequestFails : Obligations.TransactWithoutRequestFails := by
  refine ⟨fun timeout s hcs hv => exec_transact_unloaded timeout hcs hv,
    fun timeout => exec_transact_unloaded timeout rfl rfl, fun i s t hv hi h => ?_⟩
  rw [(exec_next h).req_same hi]
  exact hv

/-- Settles O43: the other branch of `TRANSACT`. -/
theorem transactStarts : Obligations.TransactStarts := fun timeout _ hcs hv => exec_transact_loaded timeout hcs hv

/-! ### The start of an attempt -/

/-- Settles O44: one attempt, and the two branches of the wait it begins. -/
theorem attemptWritesResetsAndWaits : Obligations.AttemptWritesResetsAndWaits := by
  intro timeout bytes s hcs hlt hb
  rw [step_send hcs, sendStep_attempt hlt hb]
  refine ⟨?_, fun hpos => ?_⟩
  · rintro rfl
    rw [beginWait_nonblocking]; rfl
  · rw [beginWait_blocking _ _ hpos]; rfl

/-- Settles O45: the other branch of `C_SEND`. -/
theorem fifthAttemptIsNeverBegun : Obligations.FifthAttemptIsNeverBegun := by
  intro timeout s hcs hge
  rw [step_send hcs, sendStep_exhausted hge]; rfl

/-! ### Any transaction, watched from its start -/

@[simp] theorem steps_one (s : State) : steps 1 s = step s := by
  rw [steps]
  cases step s <;> rfl

/-- What holds at the start of an operation and is kept by each of its steps holds up to the first idle state. -/
theorem steps_induction_busy {P : State → Prop} {n : Nat} {s u : State} (h0 : P s)
    (hkeep : ∀ v w, P v → v.cs ≠ .idle → step v = .next w → P w)
    (hbusy : ∀ m, m < n → ∃ v, steps m s = .next v ∧ v.cs ≠ .idle) (h : steps n s = .next u) : P u := by
  induction n generalizing u with
  | zero => cases h; exact h0
  | succ n ih =>
    obtain ⟨v, hv, hcs⟩ := hbusy n (Nat.lt_succ_self n)
    have hstep : step v = .next u := by rw [← steps_one, ← steps_add hv, h]
    exact hkeep v u (ih (fun m hm => hbusy m (Nat.lt_succ_of_lt hm)) hv) hcs hstep

/-- The two ends of a transaction for the command `cmd`: `Ok` of a latched frame (R195), `Timeout` after four attempts
(R196). -/
def TransactEnded (cmd : Byte) (u : State) : Prop :=
  (1 ≤ u.attempt ∧ u.status = .ok ∧ u.parser.frameOk = true ∧ u.parser.cmdLatched = cmd ∧
    ∃ l, u.parser.payload = some l ∧ u.result = some (.payload l)) ∨
  (u.attempt = 4 ∧ u.status = .timeout ∧ u.result = some (.raised .timeout))

/-- `u` is a state of a transaction begun in `s`, up to its end: the request is as it was, and it has been written
`attempt` times. -/
structure Transacting (bytes : List Byte) (s u : State) : Prop where
  inv : u.Inv
  req : u.req = s.req
  tx : u.env.tx = s.env.tx ++ List.replicate u.attempt bytes
  notHost : u.cs ≠ .wait .host
  ended : u.cs = .idle → TransactEnded s.req.cmd u

/-- The start of an attempt writes one copy and counts it, or the four attempts are over. -/
theorem Transacting.sendStep {bytes : List Byte} {s u v : State} {timeout : Time} (h : Transacting bytes s u)
    (hb : s.req.sequence = some bytes) (hcs : u.cs = .send timeout) (hv : sendStep timeout u = .next v) :
    Transacting bytes s v := by
  have hvi : v.Inv := sendStep_inv h.inv hcs hv
  rcases sendStep_next hv with ⟨-, l, hl, rfl⟩ | ⟨hge, rfl⟩
  · obtain rfl : l = bytes := Option.some.inj (hl.symm.trans (h.req ▸ hb))
    obtain ⟨-, -, hreq, hattempt, hwait, -, -, -, -, htx, -⟩ := beginWait_fields (.transact timeout) u.req.cmd timeout
      ((resetParser (u.setEnv (u.env.txWrite l))).setAttempt (u.attempt + 1))
    refine ⟨hvi, hreq.trans h.req, ?_, by simp [hwait], fun hidle => nomatch hwait.symm.trans hidle⟩
    calc _ = u.env.tx ++ [l] := htx
      _ = s.env.tx ++ List.replicate (u.attempt + 1) l := by
        rw [h.tx, List.append_assoc, ← List.replicate_succ']
      _ = _ := by rw [hattempt]; rfl
  · have h4 : u.attempt = 4 := Nat.le_antisymm h.inv.2.2.1 hge
    exact ⟨hvi, h.req, h.tx, nofun, fun _ => .inr ⟨h4, rfl, rfl⟩⟩

/-- A state that agrees with one of the transaction on what a wait leaves alone is one of it too. -/
theorem Transacting.of_same {bytes : List Byte} {s u v : State} (h : Transacting bytes s u) (hvi : v.Inv)
    (hreq : v.req = u.req) (hattempt : v.attempt = u.attempt) (htx : v.env.tx = u.env.tx)
    (hhost : v.cs ≠ .wait .host) (hend : v.cs = .idle → TransactEnded s.req.cmd v) : Transacting bytes s v :=
  ⟨hvi, hreq.trans h.req, by rw [htx, hattempt, h.tx], hhost, hend⟩

/-- A latched frame is that of the registers (R162). -/
theorem latchedFrame_ok {p : ParserRegs} {f : Frame} (h : latchedFrame p = .ok f) :
    p.frameOk = true ∧ p.payload = some f.payload ∧ f.cmd = p.cmdLatched := by
  unfold latchedFrame at h
  split at h
  · split at h <;> cases h
    exact ⟨‹_›, ‹_›, rfl⟩
  · cases h

/-- An empty poll leaves the wait running, or ends the attempt: the next one is due. -/
theorem Transacting.emptyPoll {bytes : List Byte} {s u : State} {timeout : Time} (h : Transacting bytes s u)
    (hcs : u.cs = .wait (.transact timeout)) :
    Transacting bytes s (emptyPoll (.transact timeout) (u.setEnv u.env.rxPoll.2)) := by
  have hvi := emptyPoll_inv (s := u.setEnv u.env.rxPoll.2) h.inv hcs
  rcases emptyPoll_cases (.transact timeout) (u.setEnv u.env.rxPoll.2) with ⟨e, he, htx, -⟩ | ⟨e, he, htx, -⟩
  · rw [he] at hvi ⊢
    exact h.of_same hvi rfl rfl (htx.trans u.env.rxPoll_tx) h.notHost fun hidle => nomatch hcs.symm.trans hidle
  · rw [he] at hvi ⊢
    exact h.of_same hvi rfl rfl (htx.trans u.env.rxPoll_tx) nofun nofun

/-- A running attempt has been counted, and waits for the request's command (R193). -/
theorem Transacting.attempt_expect {bytes : List Byte} {s u : State} {timeout : Time} (h : Transacting bytes s u)
    (hcs : u.cs = .wait (.transact timeout)) : 1 ≤ u.attempt ∧ u.reader.expect = s.req.cmd := by
  obtain ⟨-, -, -, hphase⟩ := h.inv
  simp only [State.phaseInv, hcs, Bool.and_eq_true, decide_eq_true_eq] at hphase
  obtain ⟨⟨⟨-, hone⟩, hexpect⟩, -⟩ := hphase
  exact ⟨hone, hexpect.trans (congrArg RequestRegs.cmd h.req)⟩

/-- A poll of an attempt's wait writes nothing: the attempt goes on or is over, or the transaction ends with the frame
just latched. -/
theorem Transacting.waitStep {bytes : List Byte} {s u v : State} {timeout : Time} (h : Transacting bytes s u)
    (hcs : u.cs = .wait (.transact timeout)) (hv : waitStep (.transact timeout) u = .next v) :
    Transacting bytes s v := by
  have hvi : v.Inv := waitStep_inv h.inv hcs hv
  cases hpoll : u.env.rxPoll.1 with
  | none =>
    obtain rfl := Host.Outcome.next.inj ((waitStep_empty hpoll).symm.trans hv)
    exact h.emptyPoll hcs
  | some b =>
    obtain ⟨w, hw, -, hreq, hattempt, -, hwcs, -, henv, -⟩ :=
      feedByte_keeps (s := u.setEnv u.env.rxPoll.2) h.inv.1 b
    have htx : w.env.tx = u.env.tx := henv ▸ u.env.rxPoll_tx
    rcases waitStep_byte_cases (.transact timeout) h.inv hpoll hw with ⟨-, hstep⟩ | ⟨-, f, hf, hcmd, hstep⟩
    · obtain rfl := Host.Outcome.next.inj (hstep.symm.trans hv)
      exact h.of_same hvi hreq hattempt htx (hwcs ▸ h.notHost) fun hidle => nomatch hcs.symm.trans (hwcs.symm.trans hidle)
    · obtain rfl := Host.Outcome.next.inj (hstep.symm.trans hv)
      obtain ⟨hone, hexpect⟩ := h.attempt_expect hcs
      obtain ⟨hok, hpayload, hlatched⟩ := latchedFrame_ok hf
      exact h.of_same hvi hreq hattempt htx nofun fun _ => .inl ⟨hattempt ▸ hone, rfl, hok,
        hlatched.symm.trans (hcmd.trans hexpect), f.payload, hpayload, rfl⟩

/-- A running transaction's steps keep it one, by its phase. -/
theorem Transacting.step {bytes : List Byte} {s u v : State} (hb : s.req.sequence = some bytes)
    (h : Transacting bytes s u) (hbusy : u.cs ≠ .idle) (hv : step u = .next v) : Transacting bytes s v := by
  cases hcs : u.cs with
  | idle => exact absurd hcs hbusy
  | send timeout => exact h.sendStep hb hcs (step_send hcs ▸ hv)
  | wait who =>
    cases who with
    | host => exact absurd hcs h.notHost
    | transact timeout => exact h.waitStep hcs (step_wait hcs ▸ hv)

/-- Settles O46: `Transacting` holds once `TRANSACT` has begun, with nothing written yet, and its steps keep it. -/
theorem transactionWritesOncePerAttempt : Obligations.TransactionWritesOncePerAttempt := by
  intro timeout bytes s s1 u n hi hcs hb hx hbusy hrun
  have hx' := exec_transact_loaded timeout hcs (RequestRegs.valid_of_sequence hb)
  have hstart : Transacting bytes s s1 := by
    have hi1 : s1.Inv := (exec_next hx).inv hi
    obtain rfl := Host.Outcome.next.inj (hx'.symm.trans hx)
    exact ⟨hi1, rfl, (List.append_nil _).symm, nofun, nofun⟩
  have hu : Transacting bytes s u := steps_induction_busy hstart (fun _ _ => .step hb) hbusy hrun
  exact ⟨hu.req, hu.inv.2.2.1, hu.tx, hu.ended⟩

/-! ### A silent transport -/

/-- One attempt with timeout 0 at an empty poll: two steps, one copy written, one poll made. -/
theorem steps_silentAttempt {bytes : List Byte} {rest : List (Option Byte)} {s : State} (hcs : s.cs = .send 0)
    (hlt : s.attempt < Config.retryBudget) (hb : s.req.sequence = some bytes) (hpolls : s.env.polls = none :: rest) :
    ∃ t, steps 2 s = .next t ∧ t.cs = .send 0 ∧ t.attempt = s.attempt + 1 ∧ t.req = s.req ∧
      t.env = { s.env with polls := rest, tx := s.env.tx ++ [bytes] } := by
  obtain ⟨hwrite, -⟩ := attemptWritesResetsAndWaits 0 bytes s hcs hlt hb
  obtain ⟨u, hu, hucs, humode, huattempt, hureq, huenv⟩ : ∃ u, step s = .next u ∧ u.cs = .wait (.transact 0) ∧
      u.reader.wmode = false ∧ u.attempt = s.attempt + 1 ∧ u.req = s.req ∧ u.env = s.env.txWrite bytes :=
    ⟨_, hwrite rfl, rfl, rfl, rfl, rfl, rfl⟩
  have hpoll : u.env.rxPoll = (none, { u.env with polls := rest }) := Env.rxPoll_listed (huenv ▸ hpolls)
  obtain ⟨hempty, -⟩ := emptyPollEndsOrContinuesTheWait (.transact 0) u hucs (congrArg Prod.fst hpoll)
  refine ⟨_, (steps_next hu).trans ((steps_one u).trans (hempty humode)), rfl, huattempt, hureq, ?_⟩
  calc u.env.rxPoll.2 = { u.env with polls := rest } := congrArg Prod.snd hpoll
    _ = _ := by rw [huenv]; rfl

/-- `k` such attempts, within the budget. -/
theorem steps_silentAttempts {bytes : List Byte} {rest : List (Option Byte)} (k : Nat) {s : State} (hcs : s.cs = .send 0)
    (hle : s.attempt + k ≤ Config.retryBudget) (hb : s.req.sequence = some bytes)
    (hpolls : s.env.polls = List.replicate k none ++ rest) :
    ∃ t, steps (2 * k) s = .next t ∧ t.cs = .send 0 ∧ t.attempt = s.attempt + k ∧
      t.env = { s.env with polls := rest, tx := s.env.tx ++ List.replicate k bytes } := by
  induction k generalizing s with
  | zero =>
    have hrest : s.env.polls = rest := hpolls
    exact ⟨s, rfl, hcs, rfl, by rw [← hrest, List.replicate_zero, List.append_nil]⟩
  | succ k ih =>
    obtain ⟨t, ht, htcs, htattempt, htreq, htenv⟩ :=
      steps_silentAttempt (rest := List.replicate k none ++ rest) hcs (by omega) hb
        (hpolls.trans (by rw [List.replicate_succ, List.cons_append]))
    obtain ⟨u, hu, hucs, huattempt, huenv⟩ := ih htcs (by omega) (htreq ▸ hb) (by rw [htenv])
    refine ⟨u, ?_, hucs, by omega, ?_⟩
    · rw [Nat.mul_succ, Nat.add_comm, steps_add ht, hu]
    · rw [huenv, htenv, List.replicate_succ, List.append_assoc]; rfl

/-- Settles O47: four silent attempts, then the budget is used up. -/
theorem silentTransportTimesOut : Obligations.SilentTransportTimesOut := by
  intro bytes rest s s1 hcs hv hb hpolls hx
  obtain rfl := Host.Outcome.next.inj ((exec_transact_loaded 0 hcs hv).symm.trans hx)
  obtain ⟨t, ht, htcs, htattempt, htenv⟩ := steps_silentAttempts (rest := rest) 4
    (s := ((s.setAttempt 0).setCs (.send 0)).setResult none) rfl (Nat.le_refl 4) hb hpolls
  have hlast := fifthAttemptIsNeverBegun 0 t htcs htattempt.ge
  exact ⟨_, (steps_add ht).trans ((steps_one t).trans hlast), rfl, rfl, rfl, htattempt, htenv⟩

end Sys2Proof.Machine
end

section
/-! PROOFS. The exceptions family (spec/60_exceptions.md): an operation requested while another runs is refused (O49). -/

namespace Sys2Proof.Machine

open Sys2Proof

/-- Settles O49: each operation stands under the guard `whenIdle`, and a received-byte class is none. -/
theorem operationsRefusedWhileBusy : Obligations.OperationsRefusedWhileBusy := by
  intro i s hcs hop
  cases i with
  | rxNoise b => exact absurd rfl (hop .noise b)
  | rxMarker => exact absurd rfl (hop .marker Config.marker)
  | rxFlagsLo b => exact absurd rfl (hop .flagsLo b)
  | rxFlagsHiOk b => exact absurd rfl (hop .flagsHiOk b)
  | rxFlagsHiBad b => exact absurd rfl (hop .flagsHiBad b)
  | rxBody b => exact absurd rfl (hop .body b)
  | rxLastOk b => exact absurd rfl (hop .lastOk b)
  | rxLastBad b => exact absurd rfl (hop .lastBad b)
  | frameRead | frameWrite | parserReset | feed | frameGet | checksum | encode | reqLoad | waitFrame | transact =>
    exact whenIdle_busy hcs

end Sys2Proof.Machine
end

section
/-! PROOFS. The hazards family (spec/70_reset_and_hazards.md): while a byte is delivered neither the clock nor the deadline
plays a part (O38, R261). Each part of a wait's step — the poll, the parser, the match — commutes with `State.withClock`,
the replacement of these registers. -/

namespace Sys2Proof.Machine

open Sys2Proof

variable {ck : Config.CkStep}

/-- What the timeout comparator `Now() >= t_deadline` reads (R188): the time base and the deadline. -/
structure Clock where
  ticks : List Time
  tickCount : Nat
  time : Time
  deadline : Time

/-- The environment `e` with the time base of `c`. -/
def Env.withClock (e : Env) (c : Clock) : Env := { e with ticks := c.ticks, tickCount := c.tickCount, time := c.time }

/-- The state `s` with the time base and the deadline of `c`. -/
def State.withClock (s : State) (c : Clock) : State :=
  { s with env := s.env.withClock c, reader := { s.reader with tDeadline := c.deadline } }

/-- What the transport answers does not depend on the time base. -/
theorem Env.rxPoll_withClock (e : Env) (c : Clock) : (e.withClock c).rxPoll = (e.rxPoll.1, e.rxPoll.2.withClock c) := by
  cases hp : e.polls with
  | nil => simp only [Env.rxPoll, Env.withClock, hp]
  | cons answer rest => simp only [Env.rxPoll, Env.withClock, hp]

theorem State.setEnv_withClock (s : State) (c : Clock) (e : Env) :
    (s.withClock c).setEnv (e.withClock c) = (s.setEnv e).withClock c := rfl

/-- The parser's path beside another clock is that of the state a byte leaves, since a byte writes nothing else. -/
theorem SameButParser.withPath_withClock {s t : State} (h : SameButParser s t) (c : Clock) :
    (s.withClock c).withPath t = t.withClock c := by
  obtain ⟨hreq, hattempt, hreader, hcs, hstatus, henv, hhost, hresult⟩ := h
  simp only [State.withPath, State.withClock, hreq, hattempt, hreader, hcs, hstatus, henv, hhost, hresult]

/-- The parser takes a byte alike under any clock. -/
theorem feedByte_withClock {b : Byte} {s t : State} (hi : s.parser.Inv ck) (h : feedByte b s ck = .next t) (c : Clock) :
    feedByte b (s.withClock c) ck = .next (t.withClock c) := by
  rw [← (feedByte_same h).1.withPath_withClock c]
  exact feedByte_withPath hi h (s.withClock c)

/-- The match criterion (R183), and the end of the wait where it is met (R186), are the same under any clock. -/
theorem afterByte_withClock {who : Waiter} {u t : State} (h : afterByte who (.next u) = .next t) (c : Clock) :
    afterByte who (.next (u.withClock c)) = .next (t.withClock c) := by
  by_cases hm : matched u = true
  · rw [afterByte_matched who hm] at h
    obtain ⟨f, hf, rfl⟩ := waitMatched_next h
    exact (afterByte_matched who (s := u.withClock c) hm).trans (waitMatched_latched who hf)
  · rw [afterByte_unmatched who hm] at h
    cases h
    exact afterByte_unmatched who (s := u.withClock c) hm

/-- A wait takes a delivered byte alike under any clock. -/
theorem waitStep_byte_withClock {who : Waiter} {b : Byte} {s t : State} (hi : s.Inv) (hb : s.env.rxPoll.1 = some b)
    (h : waitStep who s = .next t) (c : Clock) : waitStep who (s.withClock c) = .next (t.withClock c) := by
  obtain ⟨u, hu, -⟩ := feedByte_keeps (s := s.setEnv s.env.rxPoll.2) hi.1 b
  rw [waitStep_byte hb, hu] at h
  have hpoll : (s.withClock c).env.rxPoll = (some b, s.env.rxPoll.2.withClock c) :=
    hb ▸ s.env.rxPoll_withClock c
  calc waitStep who (s.withClock c)
    _ = afterByte who (feedByte b ((s.setEnv s.env.rxPoll.2).withClock c)) := by
      rw [waitStep_byte (congrArg Prod.fst hpoll), hpoll, State.setEnv_withClock]
    _ = afterByte who (.next (u.withClock c)) := by
      rw [feedByte_withClock (s := s.setEnv s.env.rxPoll.2) hi.1 hu c]
    _ = .next (t.withClock c) := afterByte_withClock h c

/-- Settles O38: the changed states of the statement are `s.withClock c` and `t.withClock c`. -/
theorem deadlineIgnoredWhileBytesArrive : Obligations.DeadlineIgnoredWhileBytesArrive := by
  intro who b s t ticks tickCount time deadline hi hcs hb h
  have hwait : (s.withClock ⟨ticks, tickCount, time, deadline⟩).cs = .wait who := hcs
  exact (step_wait hwait).trans (waitStep_byte_withClock hi hb (step_wait hcs ▸ h) _)

end Sys2Proof.Machine
end
